-- ==== Sys2Proof/Word.lean ====
section
/-! DEFINITION. The 32-bit word every cell, register and info word is (spec/00_scope.md R3, R7), and the validated
register index (R12). -/

namespace Sys2Proof

/-- A memory cell, a register or an info word: 32 bits, read as signed by `BitVec.toInt` (two's complement, R7)
and as unsigned by `BitVec.toNat`. -/
abbrev Word := BitVec 32

/-- A validated register index, `0 .. 3` (R12; "a validated register index 2 bits", 00_scope.md section 6). -/
abbrev RegIdx := Fin 4

end Sys2Proof
end

