-- ==== Sys2Proof/Config.lean ====
section
/-! DEFINITION. The parameters of spec/00_scope.md section 4. -/

namespace Sys2Proof.Config

/-- `ILEN`: the cells one instruction occupies, and the amount the program counter advances (R3). -/
def ilen : Nat := 4

/-- The largest legal `MEM_SIZE`, `2^32 - 4` (R4). -/
def maxMemSize : Nat := 4294967292

/-- The `MEM_SIZE` of `State.reset`. The spec leaves it open (R4); every rule holds for every legal size, and the
model's states carry their own size. DESIGN CHOICE (unsafe for a claim that rests on this number): the largest
legal one, notes/assumptions/1.md. -/
def memSize : Nat := maxMemSize

end Sys2Proof.Config
end

