-- ==== Sys2Proof/Syntax.lean ====
section
/-! DEFINITION. The instruction set: one constructor per row of spec/opcode_table.json (00_scope.md R2,
30_encoding.md R54). -/

namespace Sys2Proof

/-- An instruction with its operand cells as they stand in memory (30_encoding.md R50): `rd` the cell at `pc+1`,
`ra` the cell at `pc+2`, `rb` the cell at `pc+3`. Whether they are register indices is `Instr.wellFormed`. -/
inductive Instr where
  /-- opcode 0, format H (42_halt.md R110) -/
  | halt
  /-- opcode 1, format R (43_arithmetic.md R116) -/
  | add (rd ra rb : Word)
  /-- opcode 2, format R (43_arithmetic.md R117) -/
  | sub (rd ra rb : Word)
  /-- opcode 3, format R (43_arithmetic.md R118) -/
  | mul (rd ra rb : Word)
  /-- opcode 4, format R (43_arithmetic.md R119) -/
  | div (rd ra rb : Word)
deriving DecidableEq, Repr

/-- The operations of the alu (41_cycle.md R104). -/
inductive AluOp where
  | add
  | sub
  | mul
  | div
deriving DecidableEq, Repr

/-- The arithmetic instruction of an alu operation. -/
def aluInstr : AluOp → Word → Word → Word → Instr
  | .add, rd, ra, rb => .add rd ra rb
  | .sub, rd, ra, rb => .sub rd ra rb
  | .mul, rd, ra, rb => .mul rd ra rb
  | .div, rd, ra, rb => .div rd ra rb

end Sys2Proof
end

