-- ==== Sys2Proof/WellFormed.lean ====
section
/-! DEFINITION. Which instructions are legal: every operand cell is a register index as a whole signed cell
(spec/30_encoding.md R51, R53, R57). -/

namespace Sys2Proof

/-- `0 <= c <= 3` on the whole signed 32-bit cell; never masked, never modulo 4 (R53). -/
def isRegCell (c : Word) : Bool := decide (0 ≤ c.toInt) && decide (c.toInt ≤ 3)

/-- Format R needs three register indices; format H has no operand (R51). -/
def Instr.wellFormed : Instr → Bool
  | .halt => true
  | .add rd ra rb => isRegCell rd && isRegCell ra && isRegCell rb
  | .sub rd ra rb => isRegCell rd && isRegCell ra && isRegCell rb
  | .mul rd ra rb => isRegCell rd && isRegCell ra && isRegCell rb
  | .div rd ra rb => isRegCell rd && isRegCell ra && isRegCell rb

end Sys2Proof
end

