-- ==== Sys2Proof/Decode.lean ====
section
/-! DEFINITION. The decode_unit (spec/30_encoding.md R50 to R63): a verdict for any cells, and the encoder. -/

namespace Sys2Proof

/-- The three classes of an opcode cell (R52). -/
inductive OpcodeClass where
  | halt
  | alu (op : AluOp)
  | unknown (value : Word)
deriving DecidableEq, Repr

/-- The verdict on three operand cells (R62): the first invalid cell, or three validated indices. -/
inductive OperandVerdict where
  | invalid (c : Word)
  | regs (rd ra rb : RegIdx)
deriving DecidableEq, Repr

/-- Why cells are no instruction. -/
inductive DecodeReject where
  /-- the opcode cell holds none of the five values (R55) -/
  | unknownOpcode (value : Word)
  /-- the first operand cell, in the order rd, ra, rb, outside `0 .. 3` (R57) -/
  | invalidRegister (c : Word)
  /-- cell number `k` of the instruction, counted from 0, is not there (41_cycle.md R91, R93) -/
  | missingCell (k : Nat)
deriving DecidableEq, Repr

/-- What the decoder answers. -/
inductive Decoded where
  | instr (i : Instr)
  | reject (r : DecodeReject)
deriving DecidableEq, Repr

/-- `decode_opcode` of R62: the whole cell is compared with the five values (R52, R54). -/
def decodeOpcode (c : Word) : OpcodeClass :=
  if c = 0#32 then .halt
  else if c = 1#32 then .alu .add
  else if c = 2#32 then .alu .sub
  else if c = 3#32 then .alu .mul
  else if c = 4#32 then .alu .div
  else .unknown c

/-- One operand cell (R53): its whole signed value must lie in `0 .. 3`, and is then the index. -/
def decodeOperand (c : Word) : Option RegIdx :=
  if h : 0 ≤ c.toInt ∧ c.toInt ≤ 3 then some ⟨c.toInt.toNat, by omega⟩ else none

/-- `decode_operands` of R62, in the order rd, ra, rb. -/
def decodeOperands (c1 c2 c3 : Word) : OperandVerdict :=
  match decodeOperand c1 with
  | none => .invalid c1
  | some rd =>
    match decodeOperand c2 with
    | none => .invalid c2
    | some ra =>
      match decodeOperand c3 with
      | none => .invalid c3
      | some rb => .regs rd ra rb

/-- The decoder on the cells that stand from the program counter on, opcode cell first (R50): it is total, reads
one cell for HALT and for an unknown opcode and four cells otherwise (R51, R55, R56), and ignores what follows.
The order of the rejections is that of 60_exceptions.md R149. -/
def decode : List Word → Decoded
  | [] => .reject (.missingCell 0)
  | opc :: rest =>
    match decodeOpcode opc with
    | .halt => .instr .halt
    | .unknown v => .reject (.unknownOpcode v)
    | .alu op =>
      match rest with
      | c1 :: c2 :: c3 :: _ =>
        match decodeOperands c1 c2 c3 with
        | .invalid c => .reject (.invalidRegister c)
        | .regs _ _ _ => .instr (aluInstr op c1 c2 c3)
      | short => .reject (.missingCell (1 + short.length))

/-- The operand cell that holds register index `r`: the value `r` itself (R53, R61). -/
def regCell (r : RegIdx) : Word := BitVec.ofNat 32 r.val

/-- The opcode cell of an alu operation (R54, R61). -/
def aluCode : AluOp → Word
  | .add => 1#32
  | .sub => 2#32
  | .mul => 3#32
  | .div => 4#32

/-- The cells of an instruction (R61): one for HALT, four for the others. -/
def encode : Instr → List Word
  | .halt => [0#32]
  | .add rd ra rb => [1#32, rd, ra, rb]
  | .sub rd ra rb => [2#32, rd, ra, rb]
  | .mul rd ra rb => [3#32, rd, ra, rb]
  | .div rd ra rb => [4#32, rd, ra, rb]

/-- The four cells of a table word: bit 0 is the least significant bit of the opcode cell, cell `k` is bits
`32k+31 .. 32k`, and every bit from `nbits` up is 0. -/
def tableCells (nbits w : Nat) : List Word :=
  [0, 1, 2, 3].map fun k => BitVec.ofNat 32 (w % 2 ^ nbits / 2 ^ (32 * k))

/-- The instruction the decoder reads from a table word. -/
def decodeTableWord (nbits w : Nat) : Option Instr :=
  match decode (tableCells nbits w) with
  | .instr i => some i
  | .reject _ => none

end Sys2Proof
end

