-- ==== Sys2Proof/Machine/State.lean ====
section
/-! DEFINITION. The state of the core, exactly the six items of spec/10_state.md R10, as plain data, and its value
after reset (R25). -/

namespace Sys2Proof.Machine

/-- `st`, the run state (10_state.md R18). -/
inductive RunState where
  | idle
  | running
  | halted
  | faulted
deriving DecidableEq, Repr

/-- The code numbers of R18. -/
def RunState.code : RunState → BitVec 2
  | .idle => 0
  | .running => 1
  | .halted => 2
  | .faulted => 3

/-- `fault_kind` (60_exceptions.md R141). `outOfBounds` occurs only in answers to the host, never in the record
(20_memory.md R46). -/
inductive FaultKind where
  | none
  | outOfBounds
  | invalidRegister
  | unknownOpcode
  | divisionByZero
  | memoryFault
deriving DecidableEq, Repr

/-- The code numbers of R141; 6 and 7 are never produced. -/
def FaultKind.code : FaultKind → BitVec 3
  | .none => 0
  | .outOfBounds => 1
  | .invalidRegister => 2
  | .unknownOpcode => 3
  | .divisionByZero => 4
  | .memoryFault => 5

/-- `mem` (10_state.md R23, 20_memory.md R30): a sequence of `size` = `MEM_SIZE` cells, each one 32-bit word.
`cells` lists the cells that do not hold 0, addresses rising; an unlisted address below `size` holds 0, its reset
value (R25). There is no byte view of it (20_memory.md R35): notes/assumptions/2.md. -/
structure Memory where
  size  : Nat
  cells : List (Nat × Word)
deriving DecidableEq, Repr

/-- The canonical form: addresses strictly rising, no listed cell holds 0, every listed address exists. -/
abbrev Memory.wf (m : Memory) : Prop :=
  m.cells.Pairwise (fun p q => p.1 < q.1) ∧ ∀ p ∈ m.cells, p.1 < m.size ∧ p.2 ≠ 0#32

/-- The state of the core (10_state.md R10). -/
structure State where
  /-- the memory (R23) -/
  mem       : Memory
  /-- the registers `x[0] .. x[3]` (R11) -/
  x         : Vector Word 4
  /-- the address of the opcode cell of the next instruction to fetch (R14) -/
  pc        : Word
  /-- the run state (R18) -/
  st        : RunState
  /-- the kind in the fault record (R20) -/
  faultKind : FaultKind
  /-- the info word in the fault record (R20) -/
  faultInfo : Word
deriving DecidableEq, Repr

/-- Why the machine could stop without a next state. Nothing does: "Nothing in this hardware is treated as `stuck`"
(93_implementation_defined.md), and the spec's own faults are next states (60_exceptions.md R150). No constructor,
so no meaning can raise one (safe): notes/assumptions/9.md. -/
inductive Fault where
deriving DecidableEq, Repr

/-- Why an instruction could have no meaning. -/
inductive Refusal where
  /-- raised by an arm of `exec` whose instruction has no meaning yet; no arm raises it (safe) -/
  | notModelled (mnemonic : String)
deriving DecidableEq, Repr

/-- The state after RESET of a core built with `n` memory cells: the table of 10_state.md R25. -/
def State.resetWith (n : Nat) : State where
  mem := { size := n, cells := [] }
  x := Vector.replicate 4 0#32
  pc := 0#32
  st := .idle
  faultKind := .none
  faultInfo := 0#32

/-- The machine right after power-on, which is a RESET (70_reset_and_hazards.md R170), at the size of
`Config.memSize` (DESIGN CHOICE, notes/assumptions/1.md). -/
def State.reset : State := State.resetWith Config.memSize

end Sys2Proof.Machine
end

