-- ==== Sys2Proof/Machine/Ops.lean ====
section
/-! DEFINITION. The named operations over memory, registers and the run state: MemRead and MemWrite
(spec/20_memory.md), the register ports, commit, taking a fault, halting, accepting a run. -/

namespace Sys2Proof.Machine

/-- The value a list of cells gives address `a`: 0 where nothing is listed (10_state.md R25). -/
def lookupCell : List (Nat × Word) → Nat → Word
  | [], _ => 0#32
  | (b, w) :: rest, a => if a = b then w else lookupCell rest a

/-- Give address `a` the value `v`, keeping addresses rising and listing no 0. -/
def insertCell : List (Nat × Word) → Nat → Word → List (Nat × Word)
  | [], a, v => if v = 0#32 then [] else [(a, v)]
  | (b, w) :: rest, a, v =>
    if a < b then (if v = 0#32 then (b, w) :: rest else (a, v) :: (b, w) :: rest)
    else if a = b then (if v = 0#32 then rest else (a, v) :: rest)
    else (b, w) :: insertCell rest a v

/-- `MemRead(addr, 1)` (20_memory.md R31): the cell, or `none` for OutOfBounds(addr). -/
def memRead (m : Memory) (addr : Nat) : Option Word :=
  if addr < m.size then some (lookupCell m.cells addr) else none

/-- `MemWrite(addr, 1, v)` (20_memory.md R32): the memory with that one cell changed, or `none` for
OutOfBounds(addr), in which case nothing changes. -/
def memWrite (m : Memory) (addr : Nat) (v : Word) : Option Memory :=
  if addr < m.size then some { m with cells := insertCell m.cells addr v } else none

/-- The address of cell `k` of the instruction at `pc`, formed without wrap-around (00_scope.md R5, 41_cycle.md
R101). -/
def cellAddr (s : State) (k : Nat) : Nat := s.pc.toNat + k

/-- The info word that records an address (60_exceptions.md R141). -/
def addrInfo (a : Nat) : Word := BitVec.ofNat 32 a

/-- A read port of the register_file (41_cycle.md R103). No register is hard-wired (10_state.md R11). -/
def readReg (s : State) (r : RegIdx) : Word := s.x[r.val]

/-- The write port of the register_file (41_cycle.md R103). -/
def writeReg (r : RegIdx) (v : Word) (s : State) : State := { s with x := s.x.set r.val v }

/-- Phase 7, commit (41_cycle.md R97): the result is written and the program counter advanced together; `st` stays
as it is. -/
def commit (rd : RegIdx) (r : Word) (s : State) : State := { writeReg rd r s with pc := s.pc + 4#32 }

/-- TAKING A FAULT (60_exceptions.md R150, 41_cycle.md R98; `raise` of 00_scope.md section 6): the run stops, the
record is set, and nothing else changes; `pc` keeps the address of the faulting instruction. There is no handler
and nothing is saved elsewhere. There is no return from it either (R151): the host's RESET or RUN leaves Faulted. -/
def raise (kind : FaultKind) (info : Word) (s : State) : State :=
  { s with st := .faulted, faultKind := kind, faultInfo := info }

/-- The effect of HALT (42_halt.md R110): `st` only. -/
def haltRun (s : State) : State := { s with st := .halted }

/-- The acceptance of RUN (40_host_operations.md R76): `st` and the cleared record; `pc`, `x`, `mem` as they were. -/
def acceptRun (s : State) : State := { s with st := .running, faultKind := .none, faultInfo := 0#32 }

/-- Consecutive cells from address `a` on, in the list form of memory. -/
def insertCells : List (Nat × Word) → Nat → List Word → List (Nat × Word)
  | l, _, [] => l
  | l, a, v :: vs => insertCells (insertCell l a v) (a + 1) vs

/-- Place cells where the next instruction is fetched and accept a RUN, for `State.withFetchWord`: the host's
MEM_WRITEs and RUN (70_reset_and_hazards.md R172) in one. A memory too short for the cells is taken at the length
they need (DESIGN CHOICE, unsafe: a built core's length never changes, notes/assumptions/5.md). -/
def placeAndRun (vs : List Word) (s : State) : State :=
  acceptRun { s with
    mem := { size := max s.mem.size (s.pc.toNat + vs.length), cells := insertCells s.mem.cells s.pc.toNat vs } }

end Sys2Proof.Machine
end

