-- ==== Sys2Proof/Machine/Operands.lean ====
section
/-! DEFINITION. The one operand form of the instruction set, three register indices (spec/30_encoding.md R63), and
the alu's functions (00_scope.md section 5, 43_arithmetic.md R120, R121). -/

namespace Sys2Proof.Machine

/-- Phase 5 (41_cycle.md R95): both sources, read before anything is written. -/
def readSources (ra rb : RegIdx) (s : State) : Word × Word := (readReg s ra, readReg s rb)

/-- `wrap32(z)` (00_scope.md section 5): the exact integer reduced modulo `2^32`, as 32 bits. -/
def wrap32 (z : Int) : Word := BitVec.ofInt 32 z

/-- `tdiv(a, b)` (00_scope.md section 5): the quotient rounded toward zero. -/
def tdivInt (a b : Int) : Int := a.tdiv b

/-- The alu's result function (43_arithmetic.md R116 to R119): the exact result on signed integers, then `wrap32`.
For DIV it is used only when the divisor is not 0. -/
def aluFn (op : AluOp) (a b : Word) : Word :=
  match op with
  | .add => wrap32 (a.toInt + b.toInt)
  | .sub => wrap32 (a.toInt - b.toInt)
  | .mul => wrap32 (a.toInt * b.toInt)
  | .div => wrap32 (tdivInt a.toInt b.toInt)

end Sys2Proof.Machine
end

