-- ==== Sys2Proof/Machine/Flags.lean ====
section
/-! DEFINITION. The core has no flags and no condition codes (spec/10_state.md R17, 43_arithmetic.md R123), so no
flag is computed. The one condition the alu reports beside its result is divide-by-zero (41_cycle.md R96, R104). -/

namespace Sys2Proof.Machine

/-- The divide-by-zero condition: `op = DIV` and the divisor's value is 0 (R104, 60_exceptions.md R146). -/
def divideByZero (op : AluOp) (b : Word) : Bool := decide (op = .div) && decide (b = 0#32)

end Sys2Proof.Machine
end

