-- ==== Sys2Proof/Machine/Arithmetic.lean ====
section
/-! DEFINITION. The meanings of ADD, SUB, MUL and DIV (spec/43_arithmetic.md R115 to R122): phases 4 to 7 of the
step (41_cycle.md R94 to R97) on the instruction's operand cells. -/

namespace Sys2Proof.Machine

/-- Phases 6 and 7 on validated indices: the alu's result committed, or DivisionByZero(rb) taken (R96, R97). -/
def execRegs (op : AluOp) (rd ra rb : RegIdx) (s : State) : State :=
  let ab := readSources ra rb s
  if divideByZero op ab.2 then raise .divisionByZero (regCell rb) s
  else commit rd (aluFn op ab.1 ab.2) s

/-- What the four instructions have in common (R115): validate the operand cells in the order rd, ra, rb, then
`execRegs`. The decoder lets no invalid cell through; given one all the same, the instruction takes
InvalidRegister with it (R57, 60_exceptions.md R145). -/
def execArith (op : AluOp) (c1 c2 c3 : Word) (s : State) : Host.Outcome State Fault Refusal :=
  match decodeOperands c1 c2 c3 with
  | .invalid c => .next (raise .invalidRegister c s)
  | .regs rd ra rb => .next (execRegs op rd ra rb s)

/-- ADD (R116). -/
def execAdd (rd ra rb : Word) (s : State) : Host.Outcome State Fault Refusal := execArith .add rd ra rb s

/-- SUB (R117): the minuend is `x[ra]`. -/
def execSub (rd ra rb : Word) (s : State) : Host.Outcome State Fault Refusal := execArith .sub rd ra rb s

/-- MUL (R118): the low 32 bits of the exact product. -/
def execMul (rd ra rb : Word) (s : State) : Host.Outcome State Fault Refusal := execArith .mul rd ra rb s

/-- DIV (R119): the dividend is `x[ra]`; DivisionByZero(rb) when `x[rb]` is 0. -/
def execDiv (rd ra rb : Word) (s : State) : Host.Outcome State Fault Refusal := execArith .div rd ra rb s

end Sys2Proof.Machine
end

