-- ==== Sys2Proof/Machine/Control.lean ====
section
/-! DEFINITION. The meaning of HALT (spec/42_halt.md R110), the only control or system instruction (R111, R112). -/

namespace Sys2Proof.Machine

/-- HALT: `st <- Halted`; `pc`, `x`, `mem` and the record unchanged. -/
def execHalt (s : State) : Host.Outcome State Fault Refusal := .next (haltRun s)

end Sys2Proof.Machine
end

