-- ==== Sys2Proof/Machine/Fetch.lean ====
section
/-! DEFINITION. The fetch_unit and what it hands the decode_unit: phases 1 to 4 of the step (spec/41_cycle.md R91 to
R94). -/

namespace Sys2Proof.Machine

/-- What phases 1 to 4 end in: a legal instruction, or the fault to raise. -/
inductive Fetched where
  | instr (i : Instr)
  | fault (kind : FaultKind) (info : Word)
deriving DecidableEq, Repr

/-- The decoder's answer as the fault it raises (R92, R94); a missing cell `k` is MemoryFault(pc+k) (R91, R93). -/
def decodedFault (s : State) : Decoded → Fetched
  | .instr i => .instr i
  | .reject (.unknownOpcode v) => .fault .unknownOpcode v
  | .reject (.invalidRegister c) => .fault .invalidRegister c
  | .reject (.missingCell k) => .fault .memoryFault (addrInfo (cellAddr s k))

/-- Phase 3 (R93): the operand cells in ascending address order, up to the first that does not exist. -/
def operandCells (s : State) : List Word :=
  match memRead s.mem (cellAddr s 1) with
  | none => []
  | some c1 =>
    match memRead s.mem (cellAddr s 2) with
    | none => [c1]
    | some c2 =>
      match memRead s.mem (cellAddr s 3) with
      | none => [c1, c2]
      | some c3 => [c1, c2, c3]

/-- The cells a step reads: the opcode cell (R91), then, for an alu opcode only, the operand cells (R92, R93). -/
def fetchCells (s : State) : List Word :=
  match memRead s.mem (cellAddr s 0) with
  | none => []
  | some opc =>
    match decodeOpcode opc with
    | .halt => [opc]
    | .unknown _ => [opc]
    | .alu _ => opc :: operandCells s

/-- Phases 1 to 4: fetch and decode. -/
def fetch (s : State) : Fetched := decodedFault s (decode (fetchCells s))

end Sys2Proof.Machine
end

