-- ==== Sys2Proof/Machine/Cycle.lean ====
section
/-! DEFINITION. One step of the core (spec/41_cycle.md R90 to R99). -/

namespace Sys2Proof.Machine

/-- A step of a running core: fetch and decode, then the instruction, or the fault that was found (R98). -/
def runningCycle (s : State) : Host.Outcome State Fault Refusal :=
  match fetch s with
  | .instr i => exec i s
  | .fault kind info => .next (raise kind info s)

/-- The core's step. In Idle, Halted and Faulted the core executes nothing and keeps all its state (60_exceptions.md
R160; DESIGN CHOICE that this is a step at all, notes/assumptions/3.md). -/
def cycle (s : State) : Host.Outcome State Fault Refusal :=
  match s.st with
  | .running => runningCycle s
  | .idle => .next s
  | .halted => .next s
  | .faulted => .next s

end Sys2Proof.Machine
end

