-- ==== Sys2Proof/Machine/Step.lean ====
section
/-! DEFINITION. The step function of the machine, and the placing of one instruction where it fetches. -/

namespace Sys2Proof.Machine

/-- One step (spec/41_cycle.md R90 to R99). -/
def step (s : State) : Host.Outcome State Fault Refusal := cycle s

/-- `s` with a table word's four cells at the program counter and a run accepted, so that the next step fetches and
runs it: it stands for the host's load and RUN (70_reset_and_hazards.md R172; notes/assumptions/4.md, 5.md). -/
def State.withFetchWord (s : State) (nbits w : Nat) : State := placeAndRun (tableCells nbits w) s

end Sys2Proof.Machine
end

