-- ==== Sys2Proof/Machine/Commands.lean ====
section
/-! DEFINITION. The seven host commands (spec/40_host_operations.md R70 to R81), each atomic: an answer and the state
after it. -/

namespace Sys2Proof.Machine

/-- The commands (R70). Addresses are unsigned words, register indices signed words. -/
inductive Command where
  | reset
  | memWrite (addr v : Word)
  | memRead (addr : Word)
  | setReg (idx v : Word)
  | getReg (idx : Word)
  | run
  | getStatus
deriving DecidableEq, Repr

/-- The answers (R70). -/
inductive Answer where
  | ok
  | value (v : Word)
  | err (kind : FaultKind) (info : Word)
  | halted
  | faulted (kind : FaultKind) (info : Word)
  | status (st : RunState) (kind : FaultKind) (info : Word) (pc : Word)
deriving DecidableEq, Repr

/-- RESET (R71): every item to its reset value; `MEM_SIZE` is fixed when the core is built. -/
def serveReset (s : State) : Answer × State := (.ok, State.resetWith s.mem.size)

/-- MEM_WRITE (R72). -/
def serveMemWrite (addr v : Word) (s : State) : Answer × State :=
  match memWrite s.mem addr.toNat v with
  | some m => (.ok, { s with mem := m })
  | none => (.err .outOfBounds addr, s)

/-- MEM_READ (R73). -/
def serveMemRead (addr : Word) (s : State) : Answer × State :=
  match memRead s.mem addr.toNat with
  | some v => (.value v, s)
  | none => (.err .outOfBounds addr, s)

/-- SET_REG (R74): the index is tested exactly as an operand cell is. -/
def serveSetReg (idx v : Word) (s : State) : Answer × State :=
  match decodeOperand idx with
  | some r => (.ok, writeReg r v s)
  | none => (.err .invalidRegister idx, s)

/-- GET_REG (R75). -/
def serveGetReg (idx : Word) (s : State) : Answer × State :=
  match decodeOperand idx with
  | some r => (.value (readReg s r), s)
  | none => (.err .invalidRegister idx, s)

/-- `while st = Running do step()` (R76) with at most `fuel` steps: `none` when the fuel runs out first. -/
def runSteps : Nat → State → Option State
  | 0, s => if s.st = .running then none else some s
  | fuel + 1, s =>
    if s.st = .running then
      match step s with
      | .next s' => runSteps fuel s'
      | .fault _ => none
      | .refused _ => none
    else some s

/-- The most steps a run from here can take (41_cycle.md R100, 40_host_operations.md R79). -/
def runBound (s : State) : Nat := (s.mem.size - s.pc.toNat) / 4 + 1

/-- The answer of a run that has ended (R76). -/
def endAnswer (s : State) : Answer :=
  match s.st with
  | .halted => .halted
  | _ => .faulted s.faultKind s.faultInfo

/-- RUN (R76): accepted, then steps until the run ends. `none` would be a run that does not end within the bound of
R100; no state that meets the machine's invariant has one (notes/assumptions/8.md). -/
def serveRun (s : State) : Option (Answer × State) :=
  (runSteps (runBound s) (acceptRun s)).map fun s' => (endAnswer s', s')

/-- GET_STATUS (R80). -/
def serveGetStatus (s : State) : Answer × State := (.status s.st s.faultKind s.faultInfo s.pc, s)

/-- A host command (R70): `none` when it is not accepted, which is so exactly while a run is in progress. -/
def serve (c : Command) (s : State) : Option (Answer × State) :=
  if s.st = .running then none
  else
    match c with
    | .reset => some (serveReset s)
    | .memWrite addr v => some (serveMemWrite addr v s)
    | .memRead addr => some (serveMemRead addr s)
    | .setReg idx v => some (serveSetReg idx v s)
    | .getReg idx => some (serveGetReg idx s)
    | .run => serveRun s
    | .getStatus => some (serveGetStatus s)

end Sys2Proof.Machine
end

