-- ==== Sys2Proof/Safety.lean ====
section
/-! DEFINITION. The machine's invariant, in the spec's own terms. -/

namespace Sys2Proof.Machine

/-- The bound on `MEM_SIZE` (spec/00_scope.md R4). -/
abbrev SizeLegal (s : State) : Prop := s.mem.size ≤ Config.maxMemSize

/-- The program counter's invariants (10_state.md R16): a multiple of 4, at most `MEM_SIZE`. -/
abbrev PcLegal (s : State) : Prop := s.pc.toNat % 4 = 0 ∧ s.pc.toNat ≤ s.mem.size

/-- The fault record's invariant (10_state.md R20, 20_memory.md R46): clear unless Faulted, and in Faulted a kind that
a run can record. -/
abbrev RecordLegal (s : State) : Prop :=
  (s.st ≠ .faulted → s.faultKind = .none ∧ s.faultInfo = 0#32) ∧
  (s.st = .faulted → s.faultKind ≠ .none ∧ s.faultKind ≠ .outOfBounds)

/-- What every state reachable from reset meets. -/
structure Inv (s : State) : Prop where
  memWf  : s.mem.wf
  size   : SizeLegal s
  pc     : PcLegal s
  record : RecordLegal s

end Sys2Proof.Machine
end

