-- ==== Sys2Proof/Certificates/Slice0/Obligations.lean ====
section
/-! DEFINITION. The statements for the provers. Overflow by wrap, division toward zero, `INT_MIN / -1`, the order of the
operand faults and the info words are what the numbered rules of spec/ say; the spec marks them as its own decisions
(spec/92_eei_decisions.md D5, D7, D8, D9, D12; notes/assumptions/7.md). -/

open Sys2Proof Sys2Proof.Machine

/-! ## Shorthands, in the spec's own terms -/

namespace Sys2Proof.Certificates

/-- A valid operand cell: `0 <= c <= 3` on the whole signed cell (30_encoding.md R53). -/
abbrev IsIndex (c : Word) : Prop := 0 ≤ c.toInt ∧ c.toInt ≤ 3

/-- `s` with the whole effect of `raise kind(info)` (60_exceptions.md R150). -/
abbrev faultState (kind : FaultKind) (info : Word) (s : State) : State :=
  { s with st := .faulted, faultKind := kind, faultInfo := info }

/-- `t` is `s` after a commit to register `rd` whose value, read as signed, is `z` reduced into
`-2^31 .. 2^31 - 1` (`wrap32`, 00_scope.md section 5): the other registers, the memory, the run state and the record
are as before, and `pc` is 4 on (41_cycle.md R97). -/
abbrev Committed (s t : State) (rd : RegIdx) (z : Int) : Prop :=
  (readReg t rd).toInt = Int.bmod z 4294967296 ∧ (∀ r, r ≠ rd → readReg t r = readReg s r) ∧
  t.pc = s.pc + 4#32 ∧ t.mem = s.mem ∧ t.st = s.st ∧ t.faultKind = s.faultKind ∧ t.faultInfo = s.faultInfo

/-- The pseudocode of 43_arithmetic.md R115, for the opcode cell `code`, the alu function `f`, and whether a zero
divisor faults: what the step does in EVERY running state whose opcode cell is `code`. -/
def StepFollowsSharedShape (code : Word) (zeroFaults : Bool) (f : Int → Int → Int) : Prop :=
  ∀ s : State, s.st = .running → memRead s.mem s.pc.toNat = some code →
    (∀ k, 1 ≤ k → k ≤ 3 → s.pc.toNat + (k - 1) < s.mem.size → s.mem.size ≤ s.pc.toNat + k →
      step s = .next (faultState .memoryFault (BitVec.ofNat 32 (s.pc.toNat + k)) s)) ∧
    (∀ c1 c2 c3, memRead s.mem (s.pc.toNat + 1) = some c1 → memRead s.mem (s.pc.toNat + 2) = some c2 →
      memRead s.mem (s.pc.toNat + 3) = some c3 →
      (¬ IsIndex c1 → step s = .next (faultState .invalidRegister c1 s)) ∧
      (IsIndex c1 → ¬ IsIndex c2 → step s = .next (faultState .invalidRegister c2 s)) ∧
      (IsIndex c1 → IsIndex c2 → ¬ IsIndex c3 → step s = .next (faultState .invalidRegister c3 s)) ∧
      (∀ rd ra rb : RegIdx, (rd.val : Int) = c1.toInt → (ra.val : Int) = c2.toInt → (rb.val : Int) = c3.toInt →
        (zeroFaults = true → (readReg s rb).toInt = 0 →
          step s = .next (faultState .divisionByZero (BitVec.ofNat 32 rb.val) s)) ∧
        (¬ (zeroFaults = true ∧ (readReg s rb).toInt = 0) →
          ∃ t, step s = .next t ∧ Committed s t rd (f (readReg s ra).toInt (readReg s rb).toInt))))

/-- The assembled `step()` block of 41_cycle.md section 3, transcribed line by line on integers: what a running core
turns into. -/
def assembledStep (s : State) : State :=
  match memRead s.mem s.pc.toNat with
  | none => faultState .memoryFault (BitVec.ofNat 32 s.pc.toNat) s
  | some opc =>
    if opc.toInt = 0 then { s with st := .halted }
    else if opc.toInt < 1 ∨ opc.toInt > 4 then faultState .unknownOpcode opc s
    else
      match memRead s.mem (s.pc.toNat + 1) with
      | none => faultState .memoryFault (BitVec.ofNat 32 (s.pc.toNat + 1)) s
      | some c1 =>
        match memRead s.mem (s.pc.toNat + 2) with
        | none => faultState .memoryFault (BitVec.ofNat 32 (s.pc.toNat + 2)) s
        | some c2 =>
          match memRead s.mem (s.pc.toNat + 3) with
          | none => faultState .memoryFault (BitVec.ofNat 32 (s.pc.toNat + 3)) s
          | some c3 =>
            if c1.toInt < 0 ∨ c1.toInt > 3 then faultState .invalidRegister c1 s
            else if c2.toInt < 0 ∨ c2.toInt > 3 then faultState .invalidRegister c2 s
            else if c3.toInt < 0 ∨ c3.toInt > 3 then faultState .invalidRegister c3 s
            else
              let a := (s.x[c2.toInt.toNat]?.getD 0#32).toInt
              let b := (s.x[c3.toInt.toNat]?.getD 0#32).toInt
              if opc.toInt = 4 ∧ b = 0 then faultState .divisionByZero c3 s
              else
                let r := if opc.toInt = 1 then a + b else if opc.toInt = 2 then a - b
                  else if opc.toInt = 3 then a * b else a.tdiv b
                { s with x := s.x.setIfInBounds c1.toInt.toNat (BitVec.ofInt 32 r), pc := s.pc + 4#32 }

end Sys2Proof.Certificates

open Sys2Proof.Certificates

/-! ## Encoding -/

/-- 30_encoding.md sections 1 to 3 and 6: the cells of a legal instruction decode to it, whatever cells follow them,
with every operand at every legal value. -/
def Obligations.DecodeUndoesEncode : Prop :=
  ∀ (i : Instr) (rest : List Word), i.wellFormed = true → decode (encode i ++ rest) = .instr i

/-- 30_encoding.md sections 2 to 4: nothing but the encoding of a legal instruction decodes to it. -/
def Obligations.DecodedCellsAreTheEncoding : Prop :=
  ∀ (cells : List Word) (i : Instr), decode cells = .instr i →
    i.wellFormed = true ∧ ∃ rest, cells = encode i ++ rest

/-- R52: the opcode cell's whole signed value selects the class. -/
def Obligations.OpcodeClassIsByWholeValue : Prop :=
  ∀ c : Word,
    (c.toInt = 0 → decodeOpcode c = .halt) ∧ (c.toInt = 1 → decodeOpcode c = .alu .add) ∧
    (c.toInt = 2 → decodeOpcode c = .alu .sub) ∧ (c.toInt = 3 → decodeOpcode c = .alu .mul) ∧
    (c.toInt = 4 → decodeOpcode c = .alu .div) ∧ (c.toInt < 0 ∨ 4 < c.toInt → decodeOpcode c = .unknown c)

/-- R53: an operand cell is valid exactly when its whole signed value lies in `0 .. 3` (bits 31:2 zero), and then the
index is that value (bits 1:0); the cells are checked in the order rd, ra, rb. -/
def Obligations.OperandCellIsItsOwnIndex : Prop :=
  (∀ c : Word, IsIndex c ↔ c >>> 2 = 0#32) ∧
  ∀ c1 c2 c3 : Word,
    (¬ IsIndex c1 → decodeOperands c1 c2 c3 = .invalid c1) ∧
    (IsIndex c1 → ¬ IsIndex c2 → decodeOperands c1 c2 c3 = .invalid c2) ∧
    (IsIndex c1 → IsIndex c2 → ¬ IsIndex c3 → decodeOperands c1 c2 c3 = .invalid c3) ∧
    (IsIndex c1 → IsIndex c2 → IsIndex c3 →
      ∃ rd ra rb : RegIdx, decodeOperands c1 c2 c3 = .regs rd ra rb ∧
        (rd.val : Int) = c1.toInt ∧ rd.val = c1.toNat % 4 ∧ (ra.val : Int) = c2.toInt ∧ ra.val = c2.toNat % 4 ∧
        (rb.val : Int) = c3.toInt ∧ rb.val = c3.toNat % 4)

/-- 30_encoding.md sections 1 to 4 and 6: cells written out from the encoding tables and what they are. -/
def Obligations.WrittenOutCellsDecode : Prop :=
  decode [0x00000000#32] = .instr .halt ∧ decode [0#32, 99#32, -7#32, 12345#32] = .instr .halt ∧
  decode [0x00000001#32, 0#32, 1#32, 2#32] = .instr (.add 0#32 1#32 2#32) ∧
  decode [0x00000002#32, 3#32, 1#32, 1#32] = .instr (.sub 3#32 1#32 1#32) ∧
  decode [0x00000003#32, 0#32, 0#32, 3#32] = .instr (.mul 0#32 0#32 3#32) ∧
  decode [0x00000004#32, 2#32, 0#32, 3#32] = .instr (.div 2#32 0#32 3#32) ∧
  decode [0x00000101#32, 0#32, 0#32, 0#32] = .reject (.unknownOpcode 257#32) ∧
  decode [0xFFFFFFFF#32] = .reject (.unknownOpcode 0xFFFFFFFF#32) ∧
  decode [1#32, 0#32, 0#32, 260#32] = .reject (.invalidRegister 260#32) ∧
  decode [1#32, 9#32, 9#32] = .reject (.missingCell 3)

/-! ## The instructions' own effects: each completes, on every legal form, in every state -/

/-- 42_halt.md section 1: HALT sets the run state and changes nothing else (its frame is the equation). -/
def Obligations.HaltCompletes : Prop :=
  ∀ s : State, exec .halt s = .next { s with st := .halted }

/-- 43_arithmetic.md sections 1 to 3: ADD writes the wrapped sum, moves on, and leaves the rest. -/
def Obligations.AddCompletes : Prop :=
  ∀ (s : State) (rd ra rb : RegIdx), ∃ t,
    exec (.add (regCell rd) (regCell ra) (regCell rb)) s = .next t ∧
    Committed s t rd ((readReg s ra).toInt + (readReg s rb).toInt)

/-- 43_arithmetic.md sections 1 to 3: SUB writes the wrapped difference `x[ra] - x[rb]`, moves on, and leaves the
rest. -/
def Obligations.SubCompletes : Prop :=
  ∀ (s : State) (rd ra rb : RegIdx), ∃ t,
    exec (.sub (regCell rd) (regCell ra) (regCell rb)) s = .next t ∧
    Committed s t rd ((readReg s ra).toInt - (readReg s rb).toInt)

/-- 43_arithmetic.md sections 1 to 3: MUL writes the wrapped product, moves on, and leaves the rest. -/
def Obligations.MulCompletes : Prop :=
  ∀ (s : State) (rd ra rb : RegIdx), ∃ t,
    exec (.mul (regCell rd) (regCell ra) (regCell rb)) s = .next t ∧
    Committed s t rd ((readReg s ra).toInt * (readReg s rb).toInt)

/-- 43_arithmetic.md sections 1 to 3: DIV with a divisor other than 0 writes the wrapped quotient rounded toward zero,
moves on, and leaves the rest. -/
def Obligations.DivCompletes : Prop :=
  ∀ (s : State) (rd ra rb : RegIdx), readReg s rb ≠ 0#32 → ∃ t,
    exec (.div (regCell rd) (regCell ra) (regCell rb)) s = .next t ∧
    Committed s t rd ((readReg s ra).toInt.tdiv (readReg s rb).toInt)

/-- R146: DivisionByZero(rb) is taken by a DIV whose divisor register holds 0; ADD, SUB and MUL raise nothing, and DIV
raises nothing for any other divisor (`INT_MIN / -1` among them). -/
def Obligations.OnlyDivByZeroRaisesArithmeticFault : Prop :=
  ∀ (s : State) (rd ra rb : RegIdx),
    (readReg s rb = 0#32 →
      exec (.div (regCell rd) (regCell ra) (regCell rb)) s =
        .next (faultState .divisionByZero (BitVec.ofNat 32 rb.val) s)) ∧
    (∀ op, op ≠ .div → ∃ t, exec (aluInstr op (regCell rd) (regCell ra) (regCell rb)) s = .next t ∧
      t.st = s.st ∧ t.faultKind = s.faultKind) ∧
    (readReg s rb ≠ 0#32 →
      ∃ t, exec (.div (regCell rd) (regCell ra) (regCell rb)) s = .next t ∧ t.st = s.st ∧ t.faultKind = s.faultKind)

/-- 30_encoding.md section 4: an arithmetic instruction with an operand cell outside `0 .. 3` takes InvalidRegister with
the first such cell, and has no other effect. -/
def Obligations.InvalidOperandTakesFault : Prop :=
  ∀ (op : AluOp) (c1 c2 c3 : Word) (s : State),
    (¬ IsIndex c1 → exec (aluInstr op c1 c2 c3) s = .next (faultState .invalidRegister c1 s)) ∧
    (IsIndex c1 → ¬ IsIndex c2 → exec (aluInstr op c1 c2 c3) s = .next (faultState .invalidRegister c2 s)) ∧
    (IsIndex c1 → IsIndex c2 → ¬ IsIndex c3 →
      exec (aluInstr op c1 c2 c3) s = .next (faultState .invalidRegister c3 s))

/-- 43_arithmetic.md section 1, the frame of ADD, SUB, MUL and DIV on every form: no cell of memory changes; either
only the register that the `rd` cell names and `pc` change, or only the run state and the record do. -/
def Obligations.ArithmeticFrame : Prop :=
  ∀ (op : AluOp) (c1 c2 c3 : Word) (s t : State), exec (aluInstr op c1 c2 c3) s = .next t →
    (∀ a, memRead t.mem a = memRead s.mem a) ∧
    ((∃ rd : RegIdx, c1 = regCell rd ∧ (∀ r, r ≠ rd → readReg t r = readReg s r) ∧ t.pc = s.pc + 4#32 ∧
        t.st = s.st ∧ t.faultKind = s.faultKind ∧ t.faultInfo = s.faultInfo) ∨
      ((∀ r, readReg t r = readReg s r) ∧ t.pc = s.pc ∧ t.st = .faulted))

/-- R122: any two or all three operands may name one register, and both sources are read before the write. -/
def Obligations.AliasedOperandsUseOldValues : Prop :=
  ∀ (s : State) (r : RegIdx),
    (∃ t, exec (.add (regCell r) (regCell r) (regCell r)) s = .next t ∧
      Committed s t r (2 * (readReg s r).toInt)) ∧
    (∃ t, exec (.sub (regCell r) (regCell r) (regCell r)) s = .next t ∧ Committed s t r 0) ∧
    (∃ t, exec (.mul (regCell r) (regCell r) (regCell r)) s = .next t ∧
      Committed s t r ((readReg s r).toInt ^ 2)) ∧
    (readReg s r ≠ 0#32 →
      ∃ t, exec (.div (regCell r) (regCell r) (regCell r)) s = .next t ∧ Committed s t r 1) ∧
    (readReg s r = 0#32 →
      exec (.div (regCell r) (regCell r) (regCell r)) s =
        .next (faultState .divisionByZero (BitVec.ofNat 32 r.val) s)) ∧
    (∀ q : RegIdx, ∃ t, exec (.sub (regCell r) (regCell q) (regCell r)) s = .next t ∧
      Committed s t r ((readReg s q).toInt - (readReg s r).toInt)) ∧
    (∀ q : RegIdx, ∃ t, exec (.sub (regCell r) (regCell r) (regCell q)) s = .next t ∧
      Committed s t r ((readReg s r).toInt - (readReg s q).toInt))

/-- R120: overflow of ADD, SUB and MUL wraps modulo 2^32 into the signed range, raises no fault, and gives exactly the
32-bit vector sum, difference and product. -/
def Obligations.OverflowWrapsAsBitVectors : Prop :=
  ∀ (s : State) (rd ra rb : RegIdx),
    (∃ t, exec (.add (regCell rd) (regCell ra) (regCell rb)) s = .next t ∧ t.st = s.st ∧
      readReg t rd = readReg s ra + readReg s rb ∧
      (4294967296 : Int) ∣ (readReg t rd).toInt - ((readReg s ra).toInt + (readReg s rb).toInt)) ∧
    (∃ t, exec (.sub (regCell rd) (regCell ra) (regCell rb)) s = .next t ∧ t.st = s.st ∧
      readReg t rd = readReg s ra - readReg s rb ∧
      (4294967296 : Int) ∣ (readReg t rd).toInt - ((readReg s ra).toInt - (readReg s rb).toInt)) ∧
    (∃ t, exec (.mul (regCell rd) (regCell ra) (regCell rb)) s = .next t ∧ t.st = s.st ∧
      readReg t rd = readReg s ra * readReg s rb ∧
      (4294967296 : Int) ∣ (readReg t rd).toInt - ((readReg s ra).toInt * (readReg s rb).toInt))

/-- R121: the quotient of DIV has magnitude `floor(|a| / |b|)`, the sign of the operands' signs, and a remainder with
the sign of the dividend smaller than the divisor; `INT_MIN / -1` delivers `INT_MIN`; a zero divisor faults. -/
def Obligations.DivisionRoundsTowardZero : Prop :=
  ∀ (s : State) (rd ra rb : RegIdx),
    (readReg s rb = 0#32 → ∃ t, exec (.div (regCell rd) (regCell ra) (regCell rb)) s = .next t ∧
      t.st = .faulted ∧ t.faultKind = .divisionByZero) ∧
    (readReg s rb ≠ 0#32 → ∃ t, exec (.div (regCell rd) (regCell ra) (regCell rb)) s = .next t ∧ t.st = s.st ∧
      ((readReg s ra).toInt = -2147483648 ∧ (readReg s rb).toInt = -1 → (readReg t rd).toInt = -2147483648) ∧
      (¬ ((readReg s ra).toInt = -2147483648 ∧ (readReg s rb).toInt = -1) →
        (readReg t rd).toInt.natAbs = (readReg s ra).toInt.natAbs / (readReg s rb).toInt.natAbs ∧
        (0 ≤ (readReg s ra).toInt * (readReg s rb).toInt → 0 ≤ (readReg t rd).toInt) ∧
        ((readReg s ra).toInt * (readReg s rb).toInt ≤ 0 → (readReg t rd).toInt ≤ 0) ∧
        ∃ rem : Int, (readReg s ra).toInt = (readReg t rd).toInt * (readReg s rb).toInt + rem ∧
          rem.natAbs < (readReg s rb).toInt.natAbs ∧ 0 ≤ rem * (readReg s ra).toInt))

/-- 41_cycle.md section 3: every instruction answers a next state in every state; none stops the machine. -/
def Obligations.EveryInstructionAnswersNext : Prop :=
  ∀ (i : Instr) (s : State), ∃ t, exec i s = .next t

/-! ## The step -/

/-- 41_cycle.md section 2: when the cells at the program counter of a running core decode to an instruction, the step
is that instruction. -/
def Obligations.StepRunsDecodedInstruction : Prop :=
  ∀ (s : State) (cells : List Word) (i : Instr), s.st = .running → decode cells = .instr i →
    (∀ k (h : k < cells.length), memRead s.mem (s.pc.toNat + k) = some cells[k]) →
    step s = exec i s

/-- 41_cycle.md section 3: the model's step is the spec's assembled `step()` block. -/
def Obligations.StepIsTheAssembledStep : Prop :=
  ∀ s : State, s.st = .running → step s = .next (assembledStep s)

/-- R91, R92: an opcode cell out of bounds raises MemoryFault(pc); HALT and an unknown opcode end the step at once,
whatever the operand cells are or whether they exist; any other opcode goes on. -/
def Obligations.OpcodeIsFetchedThenDecoded : Prop :=
  ∀ s : State, s.st = .running →
    (s.mem.size ≤ s.pc.toNat → step s = .next (faultState .memoryFault s.pc s)) ∧
    (∀ opc, memRead s.mem s.pc.toNat = some opc →
      (opc.toInt = 0 → step s = .next { s with st := .halted }) ∧
      (opc.toInt < 0 ∨ 4 < opc.toInt → step s = .next (faultState .unknownOpcode opc s)) ∧
      (1 ≤ opc.toInt → opc.toInt ≤ 4 → ∃ t, step s = .next t ∧ t.st ≠ .halted ∧
        (t.st = .faulted → t.faultKind ≠ .unknownOpcode)))

/-- R144: an opcode cell that holds none of the five values raises UnknownOpcode with that cell as info; and a step
that ends in UnknownOpcode found such a cell. -/
def Obligations.UnknownOpcodeExactlyWhenUndefined : Prop :=
  ∀ s : State, s.st = .running →
    (∀ v, memRead s.mem s.pc.toNat = some v → (v.toInt < 0 ∨ 4 < v.toInt) →
      step s = .next (faultState .unknownOpcode v s)) ∧
    (∀ t, step s = .next t → t.st = .faulted → t.faultKind = .unknownOpcode →
      ∃ v, memRead s.mem s.pc.toNat = some v ∧ (v.toInt < 0 ∨ 4 < v.toInt) ∧ t = faultState .unknownOpcode v s)

/-- R93: the operand cells of an arithmetic opcode are read in ascending order and wholly before any is examined: the
first that does not exist is MemoryFault of its address, and there is no MemoryFault when all three exist. -/
def Obligations.OperandFetchFaultsAtFirstMissingCell : Prop :=
  ∀ (s : State) (opc : Word), s.st = .running → memRead s.mem s.pc.toNat = some opc →
    1 ≤ opc.toInt → opc.toInt ≤ 4 →
    (∀ k, 1 ≤ k → k ≤ 3 → s.pc.toNat + (k - 1) < s.mem.size → s.mem.size ≤ s.pc.toNat + k →
      step s = .next (faultState .memoryFault (BitVec.ofNat 32 (s.pc.toNat + k)) s)) ∧
    (s.pc.toNat + 3 < s.mem.size → ∃ t, step s = .next t ∧ (t.st = .faulted → t.faultKind ≠ .memoryFault))

/-- R115 to R119: the whole of ADD, SUB, MUL and DIV, in every running state whose opcode cell is 1, 2, 3 or 4: which
fault the step raises with which info word, or the committed result. -/
def Obligations.ArithmeticStepsFollowTheirRules : Prop :=
  StepFollowsSharedShape 1#32 false (fun a b => a + b) ∧
  StepFollowsSharedShape 2#32 false (fun a b => a - b) ∧
  StepFollowsSharedShape 3#32 false (fun a b => a * b) ∧
  StepFollowsSharedShape 4#32 true (fun a b => a.tdiv b)

/-- R110: a running core whose opcode cell is 0 halts, whatever follows the cell (nothing is required of it, so HALT
may be the last cell of memory), with `pc`, `x`, `mem` and the record unchanged; and only that ends a run without a
fault. -/
def Obligations.HaltIsTheOnlyCleanEnd : Prop :=
  ∀ s : State, s.st = .running →
    (memRead s.mem s.pc.toNat = some 0#32 → step s = .next { s with st := .halted }) ∧
    (∀ t, step s = .next t → t.st = .halted → memRead s.mem s.pc.toNat = some 0#32)

/-- R90, R97: a running core's step ends in exactly one of three ways: it halts, it faults, or it commits one register
and `pc + 4` together with nothing else changed. -/
def Obligations.StepEndsInOneOfThreeWays : Prop :=
  ∀ s : State, s.st = .running → ∃ t, step s = .next t ∧
    ((t.st = .halted ∧ t = { s with st := .halted }) ∨
     (t.st = .faulted ∧ ∃ kind info, t = faultState kind info s) ∨
     (t.st = .running ∧ ∃ (rd : RegIdx) (v : Word), t = { s with x := s.x.set rd.val v, pc := s.pc + 4#32 }))

/-- R98: a fault sets the run state and the record, with one of the four kinds a run can raise, and changes nothing
else. -/
def Obligations.FaultChangesOnlyStatusAndRecord : Prop :=
  ∀ s t : State, s.st = .running → step s = .next t → t.st = .faulted →
    t = faultState t.faultKind t.faultInfo s ∧
    (t.faultKind = .memoryFault ∨ t.faultKind = .unknownOpcode ∨ t.faultKind = .invalidRegister ∨
      t.faultKind = .divisionByZero)

/-- 60_exceptions.md section 9, and notes/assumptions/3.md (the model's choice that this is a step): in Idle, Halted and
Faulted the core executes nothing and keeps all its state. -/
def Obligations.StoppedCoreKeepsItsState : Prop :=
  ∀ s : State, s.st ≠ .running → step s = .next s

/-- 20_memory.md section 3: no step and no run changes any cell of memory. -/
def Obligations.RunsNeverWriteMemory : Prop :=
  (∀ s t : State, step s = .next t → t.mem = s.mem) ∧
  (∀ (n : Nat) (s t : State), Host.Core.run Sys2Proof.core n s = .next t → t.mem = s.mem)

/-- 20_memory.md section 3: the step reads nothing of memory but the four cells at `pc`: two running states that differ
elsewhere in memory only take the same step. -/
def Obligations.StepSeesOnlyItsOwnCells : Prop :=
  ∀ (s t : State) (m : Memory), s.st = .running →
    (∀ k, k ≤ 3 → memRead m (s.pc.toNat + k) = memRead s.mem (s.pc.toNat + k)) →
    step s = .next t → step { s with mem := m } = .next { t with mem := m }

/-- 10_state.md section 2 (the rule of who writes a register): a step that does not commit changes no register, and one
that commits changes at most the register its `rd` cell names. -/
def Obligations.OnlyTheDestinationRegisterChanges : Prop :=
  ∀ s t : State, step s = .next t →
    (¬ (s.st = .running ∧ t.st = .running) → ∀ r, readReg t r = readReg s r) ∧
    (s.st = .running → t.st = .running →
      ∃ rd : RegIdx, memRead s.mem (s.pc.toNat + 1) = some (regCell rd) ∧ ∀ r, r ≠ rd → readReg t r = readReg s r)

/-! ## Program counter, run state, record, over steps and host commands -/

/-- R15: reset sets `pc` to 0; a committing step adds 4; nothing else changes it, no fault, no HALT, and no host command
other than RESET (accepting a RUN included). -/
def Obligations.PcChangesInThreeWays : Prop :=
  (∀ s t : State, step s = .next t →
    (s.st = .running ∧ t.st = .running → t.pc = s.pc + 4#32) ∧
    (¬ (s.st = .running ∧ t.st = .running) → t.pc = s.pc)) ∧
  (∀ (s t : State) (a : Answer), serve .reset s = some (a, t) → t.pc = 0#32) ∧
  (∀ (c : Command) (s t : State) (a : Answer), c ≠ .reset → c ≠ .run → serve c s = some (a, t) → t.pc = s.pc) ∧
  (∀ s : State, (acceptRun s).pc = s.pc)

/-- R19: all transitions of the run state. -/
def Obligations.RunStateTransitions : Prop :=
  (∀ s : State, s.st ≠ .running → ∃ t, serve .reset s = some (.ok, t) ∧ t.st = .idle) ∧
  (∀ s : State, (acceptRun s).st = .running) ∧
  (∀ s t : State, s.st = .running → step s = .next t →
    (t.st = .halted ∧ memRead s.mem s.pc.toNat = some 0#32) ∨ (t.st = .faulted ∧ t.pc = s.pc) ∨
    (t.st = .running ∧ t.pc = s.pc + 4#32)) ∧
  (∀ s t : State, s.st ≠ .running → step s = .next t → t.st = s.st) ∧
  (∀ (c : Command) (s t : State) (a : Answer), c ≠ .reset → c ≠ .run → serve c s = some (a, t) → t.st = s.st)

/-- 10_state.md sections 3, 5 and 7, 20_memory.md section 1: from every state that meets the invariant (canonical memory
of legal size, `pc` a multiple of 4 and at most `MEM_SIZE`, the record clear unless Faulted and never OutOfBounds), a
step gives one that meets it. -/
def Obligations.EveryStepKeepsTheInvariant : Prop :=
  ∀ s t : State, Inv s → step s = .next t → Inv t

/-- The same sections, for the host's commands, a whole RUN among them; and no command changes `MEM_SIZE`. -/
def Obligations.EveryCommandKeepsTheInvariant : Prop :=
  ∀ (c : Command) (s t : State) (a : Answer), Inv s → serve c s = some (a, t) → Inv t ∧ t.mem.size = s.mem.size

/-- 10_state.md sections 3, 5 and 9: the state after reset meets the invariant, at every legal memory size. -/
def Obligations.ResetMeetsTheInvariant : Prop :=
  Inv State.reset ∧ ∀ n, n ≤ 4294967292 → Inv (State.resetWith n)

/-- 41_cycle.md section 4: the address a MemoryFault records is `MEM_SIZE`. -/
def Obligations.MemoryFaultRecordsMemSize : Prop :=
  ∀ s t : State, Inv s → s.st = .running → step s = .next t → t.st = .faulted → t.faultKind = .memoryFault →
    t.faultInfo.toNat = s.mem.size

/-! ## The host commands -/

/-- R71, R25: RESET gives every piece of state its reset value, and a RUN straight after it ends in Halted with nothing
else changed when there is a cell. -/
def Obligations.ResetClearsEverything : Prop :=
  ∀ s : State, s.st ≠ .running → ∃ t, serve .reset s = some (.ok, t) ∧ t.mem.size = s.mem.size ∧
    (∀ a, a < s.mem.size → memRead t.mem a = some 0#32) ∧ (∀ r, readReg t r = 0#32) ∧ t.pc = 0#32 ∧ t.st = .idle ∧
    t.faultKind = .none ∧ t.faultInfo = 0#32 ∧
    (1 ≤ s.mem.size → serve .run t = some (.halted, { t with st := .halted }))

/-- R47: a memory of no cells is legal, and a RUN on it ends in MemoryFault(0). -/
def Obligations.EmptyMemoryFaultsAtZero : Prop :=
  ∀ s : State, s.st ≠ .running → s.mem.size = 0 → s.pc = 0#32 →
    (∀ a v, serve (.memRead a) s = some (.err .outOfBounds a, s) ∧
      serve (.memWrite a v) s = some (.err .outOfBounds a, s)) ∧
    serve .run s = some (.faulted .memoryFault 0#32, faultState .memoryFault 0#32 s)

/-- R72: MEM_WRITE writes the one cell and answers Ok, or answers Err(OutOfBounds, addr) and changes nothing. -/
def Obligations.HostMemoryWrite : Prop :=
  ∀ (s : State) (addr v : Word), s.mem.wf → s.st ≠ .running →
    (addr.toNat < s.mem.size → ∃ t, serve (.memWrite addr v) s = some (.ok, t) ∧
      memRead t.mem addr.toNat = some v ∧ (∀ a, a ≠ addr.toNat → memRead t.mem a = memRead s.mem a) ∧
      t = { s with mem := t.mem }) ∧
    (s.mem.size ≤ addr.toNat → serve (.memWrite addr v) s = some (.err .outOfBounds addr, s))

/-- R33: the memory's laws, through the host's port. -/
def Obligations.MemoryLaws : Prop :=
  (∀ (n : Nat) (a : Word), a.toNat < n →
    serve (.memRead a) (State.resetWith n) = some (.value 0#32, State.resetWith n)) ∧
  (∀ (s t : State) (a v : Word), s.mem.wf → serve (.memWrite a v) s = some (.ok, t) →
    serve (.memRead a) t = some (.value v, t) ∧
    ∀ (b w : Word), b ≠ a → serve (.memRead b) s = some (.value w, s) → serve (.memRead b) t = some (.value w, t)) ∧
  (∀ (s : State) (a v : Word), s.st ≠ .running → s.mem.size ≤ a.toNat →
    serve (.memRead a) s = some (.err .outOfBounds a, s) ∧
    serve (.memWrite a v) s = some (.err .outOfBounds a, s)) ∧
  (∀ (s t : State) (a : Word) (r : Answer), serve (.memRead a) s = some (r, t) → t = s)

/-- R73: MEM_READ answers the cell or Err(OutOfBounds, addr), and changes no state. -/
def Obligations.HostMemoryRead : Prop :=
  ∀ (s : State) (addr : Word), s.st ≠ .running →
    (addr.toNat < s.mem.size → ∃ v, memRead s.mem addr.toNat = some v ∧
      serve (.memRead addr) s = some (.value v, s)) ∧
    (s.mem.size ≤ addr.toNat → serve (.memRead addr) s = some (.err .outOfBounds addr, s))

/-- R74: SET_REG writes the register its signed index names and nothing else, or answers Err and changes nothing. -/
def Obligations.HostRegisterWrite : Prop :=
  ∀ (s : State) (idx v : Word), s.st ≠ .running →
    (∀ r : RegIdx, (r.val : Int) = idx.toInt → ∃ t, serve (.setReg idx v) s = some (.ok, t) ∧
      readReg t r = v ∧ (∀ q, q ≠ r → readReg t q = readReg s q) ∧ t = { s with x := t.x }) ∧
    (¬ IsIndex idx → serve (.setReg idx v) s = some (.err .invalidRegister idx, s))

/-- R75: GET_REG answers the register its signed index names, or Err; it changes no state. -/
def Obligations.HostRegisterRead : Prop :=
  ∀ (s : State) (idx : Word), s.st ≠ .running →
    (∀ r : RegIdx, (r.val : Int) = idx.toInt → serve (.getReg idx) s = some (.value (readReg s r), s)) ∧
    (¬ IsIndex idx → serve (.getReg idx) s = some (.err .invalidRegister idx, s))

/-- 40_host_operations.md section 5: an accepted RUN clears the record and starts at the current `pc`, then steps while
Running and no further; it ends in Halted or Faulted and answers that. That it ends within
`floor((MEM_SIZE - pc0) / 4) + 1` steps is what the spec derives in 41_cycle.md section 4, and the model's RUN has that
bound as its fuel (notes/assumptions/8.md). -/
def Obligations.RunStepsToItsEnd : Prop :=
  ∀ s : State, Inv s → s.st ≠ .running → ∃ (n : Nat) (t : State),
    n ≤ (s.mem.size - s.pc.toNat) / 4 + 1 ∧
    Host.Core.run Sys2Proof.core n { s with st := .running, faultKind := .none, faultInfo := 0#32 } = .next t ∧
    (∀ m, m < n → ∃ u : State,
      Host.Core.run Sys2Proof.core m { s with st := .running, faultKind := .none, faultInfo := 0#32 } = .next u ∧
      u.st = .running) ∧
    ((t.st = .halted ∧ serve .run s = some (.halted, t)) ∨
     (t.st = .faulted ∧ serve .run s = some (.faulted t.faultKind t.faultInfo, t)))

/-- 40_host_operations.md section 5 (RUN from each state): after Halted a RUN halts again without side effects while the
cell is still HALT; after a fault a RUN with nothing changed gives the same fault again. -/
def Obligations.RunAgainRepeatsTheEnd : Prop :=
  (∀ s : State, Inv s → s.st = .halted → memRead s.mem s.pc.toNat = some 0#32 → serve .run s = some (.halted, s)) ∧
  (∀ s t : State, s.st = .running → step s = .next t → t.st = .faulted →
    serve .run t = some (.faulted t.faultKind t.faultInfo, t))

/-- R78: a command that answers Err changes no state, and the answer carries OutOfBounds with the address or
InvalidRegister with the index. -/
def Obligations.FailedCommandChangesNothing : Prop :=
  ∀ (c : Command) (s t : State) (kind : FaultKind) (info : Word), serve c s = some (.err kind info, t) →
    t = s ∧
    ((kind = .outOfBounds ∧ (c = .memRead info ∨ ∃ v, c = .memWrite info v)) ∨
     (kind = .invalidRegister ∧ (c = .getReg info ∨ ∃ v, c = .setReg info v)))

/-- R176: no command is accepted while a run is in progress; every command is accepted otherwise (R81's table). -/
def Obligations.CommandsAcceptedExactlyWhenNotRunning : Prop :=
  ∀ (c : Command) (s : State), Inv s → (serve c s = none ↔ s.st = .running)

/-- R80: GET_STATUS answers the four values with the codes of R18 and R141, and changes no state. -/
def Obligations.StatusIsReadBack : Prop :=
  (∀ s : State, s.st ≠ .running →
    serve .getStatus s = some (.status s.st s.faultKind s.faultInfo s.pc, s)) ∧
  [RunState.idle, .running, .halted, .faulted].map RunState.code = [0#2, 1#2, 2#2, 3#2] ∧
  [FaultKind.none, .outOfBounds, .invalidRegister, .unknownOpcode, .divisionByZero, .memoryFault].map FaultKind.code =
    [0#3, 1#3, 2#3, 3#3, 4#3, 5#3]

/-- R43: a host write answered Ok before a RUN is what every fetch of that run sees, at every point of it. -/
def Obligations.HostWritesAreSeenByTheRun : Prop :=
  ∀ (s t u : State) (a v : Word) (n : Nat), s.mem.wf → serve (.memWrite a v) s = some (.ok, t) →
    Host.Core.run Sys2Proof.core n (acceptRun t) = .next u → memRead u.mem a.toNat = some v

/-- 60_exceptions.md section 2: with an arithmetic opcode and all three operand cells there, the first cell outside
`0 .. 3`, in the order rd, ra, rb, raises InvalidRegister with that cell as info; and a step that ends in
InvalidRegister found such cells. -/
def Obligations.InvalidRegisterRecordsFirstBadCell : Prop :=
  ∀ s : State, s.st = .running →
    (∀ opc c1 c2 c3, memRead s.mem s.pc.toNat = some opc → 1 ≤ opc.toInt → opc.toInt ≤ 4 →
      memRead s.mem (s.pc.toNat + 1) = some c1 → memRead s.mem (s.pc.toNat + 2) = some c2 →
      memRead s.mem (s.pc.toNat + 3) = some c3 →
      (¬ IsIndex c1 → step s = .next (faultState .invalidRegister c1 s)) ∧
      (IsIndex c1 → ¬ IsIndex c2 → step s = .next (faultState .invalidRegister c2 s)) ∧
      (IsIndex c1 → IsIndex c2 → ¬ IsIndex c3 → step s = .next (faultState .invalidRegister c3 s))) ∧
    (∀ t, step s = .next t → t.st = .faulted → t.faultKind = .invalidRegister →
      ∃ opc c1 c2 c3, memRead s.mem s.pc.toNat = some opc ∧ 1 ≤ opc.toInt ∧ opc.toInt ≤ 4 ∧
        memRead s.mem (s.pc.toNat + 1) = some c1 ∧ memRead s.mem (s.pc.toNat + 2) = some c2 ∧
        memRead s.mem (s.pc.toNat + 3) = some c3 ∧
        ((¬ IsIndex c1 ∧ t.faultInfo = c1) ∨ (IsIndex c1 ∧ ¬ IsIndex c2 ∧ t.faultInfo = c2) ∨
         (IsIndex c1 ∧ IsIndex c2 ∧ ¬ IsIndex c3 ∧ t.faultInfo = c3)))
end

