-- ==== Sys2Proof/Laws/Decode.lean ====
section
/-! SUPPORT. What the decoder's parts answer, said once. -/

namespace Sys2Proof

theorem decodeOperand_some {c : Word} {r : RegIdx} :
    decodeOperand c = some r ↔ 0 ≤ c.toInt ∧ c.toInt ≤ 3 ∧ (r.val : Int) = c.toInt := by
  unfold decodeOperand
  split
  · next h =>
    simp only [Option.some.injEq, h, true_and, Fin.ext_iff]
    omega
  · next h => simp; omega

theorem decodeOperand_none {c : Word} : decodeOperand c = none ↔ ¬ (0 ≤ c.toInt ∧ c.toInt ≤ 3) := by
  unfold decodeOperand
  split <;> simp_all

@[simp] theorem regCell_toInt (r : RegIdx) : (regCell r).toInt = r.val := by
  revert r; decide

@[simp] theorem regCell_toNat (r : RegIdx) : (regCell r).toNat = r.val := by
  revert r; decide

theorem regCell_injective {q r : RegIdx} (h : regCell q = regCell r) : q = r := by
  have := congrArg BitVec.toNat h
  simpa [Fin.ext_iff] using this

@[simp] theorem decodeOperand_regCell (r : RegIdx) : decodeOperand (regCell r) = some r := by
  revert r; decide

theorem isRegCell_iff {c : Word} : isRegCell c = true ↔ 0 ≤ c.toInt ∧ c.toInt ≤ 3 := by
  simp [isRegCell]

/-- A valid operand cell is the cell of its index. -/
theorem decodeOperand_eq_regCell {c : Word} {r : RegIdx} (h : decodeOperand c = some r) : c = regCell r := by
  obtain ⟨-, -, h⟩ := decodeOperand_some.mp h
  exact BitVec.eq_of_toInt_eq (by simp [h])

/-- Everything `decodeOperands` can answer. -/
theorem decodeOperands_cases (c1 c2 c3 : Word) :
    (decodeOperand c1 = none ∧ decodeOperands c1 c2 c3 = .invalid c1) ∨
    (∃ rd, decodeOperand c1 = some rd ∧ decodeOperand c2 = none ∧ decodeOperands c1 c2 c3 = .invalid c2) ∨
    (∃ rd ra, decodeOperand c1 = some rd ∧ decodeOperand c2 = some ra ∧ decodeOperand c3 = none ∧
      decodeOperands c1 c2 c3 = .invalid c3) ∨
    (∃ rd ra rb, decodeOperand c1 = some rd ∧ decodeOperand c2 = some ra ∧ decodeOperand c3 = some rb ∧
      decodeOperands c1 c2 c3 = .regs rd ra rb) := by
  cases h1 : decodeOperand c1 <;> cases h2 : decodeOperand c2 <;> cases h3 : decodeOperand c3 <;>
    simp [decodeOperands, h1, h2, h3]

@[simp] theorem decodeOperands_regCell (rd ra rb : RegIdx) :
    decodeOperands (regCell rd) (regCell ra) (regCell rb) = .regs rd ra rb := by
  simp [decodeOperands]

/-- Everything `decodeOpcode` can answer. -/
theorem decodeOpcode_cases (c : Word) :
    (c = 0#32 ∧ decodeOpcode c = .halt) ∨ (∃ op, c = aluCode op ∧ decodeOpcode c = .alu op) ∨
    ((c.toInt < 0 ∨ 4 < c.toInt) ∧ decodeOpcode c = .unknown c) := by
  by_cases h0 : c = 0#32
  · exact .inl ⟨h0, by simp [decodeOpcode, h0]⟩
  by_cases h1 : c = 1#32
  · exact .inr (.inl ⟨.add, h1, by simp [decodeOpcode, h1]⟩)
  by_cases h2 : c = 2#32
  · exact .inr (.inl ⟨.sub, h2, by simp [decodeOpcode, h2]⟩)
  by_cases h3 : c = 3#32
  · exact .inr (.inl ⟨.mul, h3, by simp [decodeOpcode, h3]⟩)
  by_cases h4 : c = 4#32
  · exact .inr (.inl ⟨.div, h4, by simp [decodeOpcode, h4]⟩)
  refine .inr (.inr ⟨?_, by rw [decodeOpcode, if_neg h0, if_neg h1, if_neg h2, if_neg h3, if_neg h4]⟩)
  by_contra hc
  have hne : ∀ z : Word, c ≠ z → c.toInt ≠ z.toInt := fun z hz e => hz (BitVec.eq_of_toInt_eq e)
  have e0 : c.toInt ≠ 0 := hne 0 h0
  have e1 : c.toInt ≠ 1 := hne 1 h1
  have e2 : c.toInt ≠ 2 := hne 2 h2
  have e3 : c.toInt ≠ 3 := hne 3 h3
  have e4 : c.toInt ≠ 4 := hne 4 h4
  omega

@[simp] theorem decodeOpcode_aluCode (op : AluOp) : decodeOpcode (aluCode op) = .alu op := by
  cases op <;> decide

end Sys2Proof
end

