-- ==== Sys2Proof/Laws/State.lean ====
section
/-! SUPPORT. One lemma per field per update of the state, and the register file's read-after-write laws. -/

namespace Sys2Proof.Machine

variable (s : State) (r : RegIdx) (v : Word) (k : FaultKind)

@[simp] theorem writeReg_mem : (writeReg r v s).mem = s.mem := rfl
@[simp] theorem writeReg_pc : (writeReg r v s).pc = s.pc := rfl
@[simp] theorem writeReg_st : (writeReg r v s).st = s.st := rfl
@[simp] theorem writeReg_faultKind : (writeReg r v s).faultKind = s.faultKind := rfl
@[simp] theorem writeReg_faultInfo : (writeReg r v s).faultInfo = s.faultInfo := rfl

@[simp] theorem commit_mem : (commit r v s).mem = s.mem := rfl
@[simp] theorem commit_pc : (commit r v s).pc = s.pc + 4#32 := rfl
@[simp] theorem commit_st : (commit r v s).st = s.st := rfl
@[simp] theorem commit_faultKind : (commit r v s).faultKind = s.faultKind := rfl
@[simp] theorem commit_faultInfo : (commit r v s).faultInfo = s.faultInfo := rfl

@[simp] theorem raise_mem : (raise k v s).mem = s.mem := rfl
@[simp] theorem raise_x : (raise k v s).x = s.x := rfl
@[simp] theorem raise_pc : (raise k v s).pc = s.pc := rfl
@[simp] theorem raise_st : (raise k v s).st = .faulted := rfl
@[simp] theorem raise_faultKind : (raise k v s).faultKind = k := rfl
@[simp] theorem raise_faultInfo : (raise k v s).faultInfo = v := rfl

@[simp] theorem haltRun_mem : (haltRun s).mem = s.mem := rfl
@[simp] theorem haltRun_x : (haltRun s).x = s.x := rfl
@[simp] theorem haltRun_pc : (haltRun s).pc = s.pc := rfl
@[simp] theorem haltRun_st : (haltRun s).st = .halted := rfl
@[simp] theorem haltRun_faultKind : (haltRun s).faultKind = s.faultKind := rfl
@[simp] theorem haltRun_faultInfo : (haltRun s).faultInfo = s.faultInfo := rfl

@[simp] theorem acceptRun_mem : (acceptRun s).mem = s.mem := rfl
@[simp] theorem acceptRun_x : (acceptRun s).x = s.x := rfl
@[simp] theorem acceptRun_pc : (acceptRun s).pc = s.pc := rfl
@[simp] theorem acceptRun_st : (acceptRun s).st = .running := rfl
@[simp] theorem acceptRun_faultKind : (acceptRun s).faultKind = .none := rfl
@[simp] theorem acceptRun_faultInfo : (acceptRun s).faultInfo = 0#32 := rfl

@[simp] theorem resetWith_mem (n : Nat) : (State.resetWith n).mem = { size := n, cells := [] } := rfl
@[simp] theorem resetWith_pc (n : Nat) : (State.resetWith n).pc = 0#32 := rfl
@[simp] theorem resetWith_st (n : Nat) : (State.resetWith n).st = .idle := rfl
@[simp] theorem resetWith_faultKind (n : Nat) : (State.resetWith n).faultKind = .none := rfl
@[simp] theorem resetWith_faultInfo (n : Nat) : (State.resetWith n).faultInfo = 0#32 := rfl

@[simp] theorem readReg_resetWith (n : Nat) : readReg (State.resetWith n) r = 0#32 := by
  simp [readReg, State.resetWith]

@[simp] theorem readReg_writeReg_same : readReg (writeReg r v s) r = v := by
  simp [readReg, writeReg]

theorem readReg_writeReg_ne {q : RegIdx} (h : q ≠ r) : readReg (writeReg r v s) q = readReg s q := by
  have : r.val ≠ q.val := fun e => h (Fin.ext e.symm)
  simp [readReg, writeReg, Vector.getElem_set_ne, this]

@[simp] theorem readReg_commit_same : readReg (commit r v s) r = v := readReg_writeReg_same s r v

theorem readReg_commit_ne {q : RegIdx} (h : q ≠ r) : readReg (commit r v s) q = readReg s q :=
  readReg_writeReg_ne s r v h

@[simp] theorem readReg_raise : readReg (raise k v s) r = readReg s r := rfl
@[simp] theorem readReg_haltRun : readReg (haltRun s) r = readReg s r := rfl
@[simp] theorem readReg_acceptRun : readReg (acceptRun s) r = readReg s r := rfl

end Sys2Proof.Machine
end

