-- ==== Sys2Proof/Laws/Exec.lean ====
section
/-! SUPPORT. Everything an instruction's meaning can do, said once. -/

namespace Sys2Proof.Machine

theorem exec_halt (s : State) : exec .halt s = .next (haltRun s) := rfl

theorem exec_aluInstr (op : AluOp) (c1 c2 c3 : Word) (s : State) :
    exec (aluInstr op c1 c2 c3) s = execArith op c1 c2 c3 s := by
  cases op <;> rfl

/-- Everything an arithmetic instruction does on validated indices. -/
theorem execRegs_cases (op : AluOp) (rd ra rb : RegIdx) (s : State) :
    (op = .div ∧ readReg s rb = 0#32 ∧ execRegs op rd ra rb s = raise .divisionByZero (regCell rb) s) ∨
    (¬ (op = .div ∧ readReg s rb = 0#32) ∧
      execRegs op rd ra rb s = commit rd (aluFn op (readReg s ra) (readReg s rb)) s) := by
  by_cases h : op = .div ∧ readReg s rb = 0#32
  · exact .inl ⟨h.1, h.2, by simp [execRegs, readSources, divideByZero, h]⟩
  · refine .inr ⟨h, ?_⟩
    have : divideByZero op (readReg s rb) = false := by
      simp only [divideByZero, Bool.and_eq_false_iff, decide_eq_false_iff_not]
      exact not_and_or.mp h
    simp [execRegs, readSources, this]

/-- Everything an arithmetic instruction does. -/
theorem execArith_cases (op : AluOp) (c1 c2 c3 : Word) (s : State) :
    (∃ c, decodeOperands c1 c2 c3 = .invalid c ∧ execArith op c1 c2 c3 s = .next (raise .invalidRegister c s)) ∨
    (∃ rd ra rb, c1 = regCell rd ∧ c2 = regCell ra ∧ c3 = regCell rb ∧
      execArith op c1 c2 c3 s = .next (execRegs op rd ra rb s)) := by
  rcases decodeOperands_cases c1 c2 c3 with ⟨-, h⟩ | ⟨_, -, -, h⟩ | ⟨_, _, -, -, -, h⟩ | ⟨rd, ra, rb, h1, h2, h3, h⟩
  · exact .inl ⟨c1, h, by simp [execArith, h]⟩
  · exact .inl ⟨c2, h, by simp [execArith, h]⟩
  · exact .inl ⟨c3, h, by simp [execArith, h]⟩
  · exact .inr ⟨rd, ra, rb, decodeOperand_eq_regCell h1, decodeOperand_eq_regCell h2, decodeOperand_eq_regCell h3,
      by simp [execArith, h]⟩

@[simp] theorem execArith_regCell (op : AluOp) (rd ra rb : RegIdx) (s : State) :
    execArith op (regCell rd) (regCell ra) (regCell rb) s = .next (execRegs op rd ra rb s) := by
  simp [execArith]

theorem wrap32_toInt (z : Int) : (wrap32 z).toInt = z.bmod 4294967296 := by
  simp [wrap32, BitVec.toInt_ofInt]

end Sys2Proof.Machine
end

