-- ==== Sys2Proof/Laws/Memory.lean ====
section
/-! SUPPORT. The memory's laws: read after write, and every operation keeps the canonical form. -/

namespace Sys2Proof.Machine

theorem lookupCell_of_lt {l : List (Nat × Word)} {a : Nat} (h : ∀ p ∈ l, a < p.1) : lookupCell l a = 0#32 := by
  induction l with
  | nil => rfl
  | cons p rest ih =>
    have hp : a < p.1 := h p (by simp)
    have : a ≠ p.1 := by omega
    simp [lookupCell, this, ih fun q hq => h q (by simp [hq])]

theorem lookupCell_insertCell {l : List (Nat × Word)} (h : l.Pairwise (fun p q => p.1 < q.1)) (a : Nat) (v : Word)
    (b : Nat) : lookupCell (insertCell l a v) b = if b = a then v else lookupCell l b := by
  induction l with
  | nil => by_cases hv : v = 0#32 <;> simp [insertCell, lookupCell, hv]
  | cons p rest ih =>
    obtain ⟨c, w⟩ := p
    obtain ⟨hlt, hrest⟩ := List.pairwise_cons.mp h
    rcases Nat.lt_trichotomy a c with hac | rfl | hca
    · have hz : lookupCell ((c, w) :: rest) a = 0#32 := lookupCell_of_lt fun q hq => by
        rcases List.mem_cons.mp hq with rfl | hq
        · exact hac
        · exact Nat.lt_trans hac (hlt q hq)
      by_cases hv : v = 0#32
      · by_cases hb : b = a
        · simp [insertCell, hac, hv, hb, hz]
        · simp [insertCell, hac, hv, hb]
      · by_cases hb : b = a <;> simp [insertCell, hac, hv, lookupCell, hb]
    · have hz : lookupCell rest a = 0#32 := lookupCell_of_lt hlt
      by_cases hv : v = 0#32
      · by_cases hb : b = a <;> simp [insertCell, hv, lookupCell, hb, hz]
      · by_cases hb : b = a <;> simp [insertCell, hv, lookupCell, hb]
    · have h1 : ¬ a < c := by omega
      have h2 : a ≠ c := by omega
      by_cases hb : b = c
      · have : b ≠ a := by omega
        simp [insertCell, h1, h2, lookupCell, hb, h2.symm]
      · simp [insertCell, h1, h2, lookupCell, hb, ih hrest]

/-- Every entry of the written list is an old entry or the new one. -/
theorem mem_insertCell {l : List (Nat × Word)} {a : Nat} {v : Word} {p : Nat × Word} (h : p ∈ insertCell l a v) :
    p ∈ l ∨ (p = (a, v) ∧ v ≠ 0#32) := by
  induction l with
  | nil => by_cases hv : v = 0#32 <;> simp_all [insertCell]
  | cons q rest ih =>
    obtain ⟨c, w⟩ := q
    unfold insertCell at h
    split at h
    · split at h
      · exact .inl h
      · rcases List.mem_cons.mp h with rfl | h
        · exact .inr ⟨rfl, ‹_›⟩
        · exact .inl h
    · split at h
      · split at h
        · exact .inl (List.mem_cons_of_mem _ h)
        · rcases List.mem_cons.mp h with rfl | h
          · exact .inr ⟨rfl, ‹_›⟩
          · exact .inl (List.mem_cons_of_mem _ h)
      · rcases List.mem_cons.mp h with rfl | h
        · exact .inl (by simp)
        · exact (ih h).imp_left (List.mem_cons_of_mem _)

theorem insertCell_rising {l : List (Nat × Word)} (h : l.Pairwise (fun p q => p.1 < q.1)) (a : Nat) (v : Word) :
    (insertCell l a v).Pairwise (fun p q => p.1 < q.1) := by
  induction l with
  | nil => by_cases hv : v = 0#32 <;> simp [insertCell, hv]
  | cons q rest ih =>
    obtain ⟨c, w⟩ := q
    obtain ⟨hlt, hrest⟩ := List.pairwise_cons.mp h
    unfold insertCell
    split
    · next hac =>
      split
      · exact h
      · refine List.pairwise_cons.mpr ⟨fun p hp => ?_, h⟩
        rcases List.mem_cons.mp hp with rfl | hp
        · exact hac
        · exact Nat.lt_trans hac (hlt p hp)
    · split
      · next heq =>
        subst heq
        split
        · exact hrest
        · exact List.pairwise_cons.mpr ⟨hlt, hrest⟩
      · refine List.pairwise_cons.mpr ⟨fun p hp => ?_, ih hrest⟩
        rcases mem_insertCell hp with hp | ⟨rfl, -⟩
        · exact hlt p hp
        · simp only; omega

/-- `memWrite` changes one cell of the list and nothing else. -/
theorem memWrite_some {m m' : Memory} {a : Nat} {v : Word} (h : memWrite m a v = some m') :
    a < m.size ∧ m' = { m with cells := insertCell m.cells a v } := by
  unfold memWrite at h
  split at h
  · exact ⟨‹_›, (Option.some.inj h).symm⟩
  · cases h

/-- Every memory operation keeps the canonical form: a read changes nothing, and a write keeps it. -/
theorem memWrite_wf {m m' : Memory} {a : Nat} {v : Word} (hw : m.wf) (h : memWrite m a v = some m') : m'.wf := by
  obtain ⟨ha, rfl⟩ := memWrite_some h
  refine ⟨insertCell_rising hw.1 a v, fun p hp => ?_⟩
  rcases mem_insertCell hp with hp | ⟨rfl, hv⟩
  · exact hw.2 p hp
  · exact ⟨ha, hv⟩

theorem resetWith_mem_wf (n : Nat) : (State.resetWith n).mem.wf := ⟨.nil, by simp⟩

theorem memRead_of_lt {m : Memory} {a : Nat} (h : a < m.size) : memRead m a = some (lookupCell m.cells a) := by
  simp [memRead, h]

theorem memRead_eq_none {m : Memory} {a : Nat} : memRead m a = none ↔ m.size ≤ a := by
  simp [memRead]

theorem memRead_lt {m : Memory} {a : Nat} {v : Word} (h : memRead m a = some v) : a < m.size := by
  by_contra hn
  simp [memRead, hn] at h

theorem memRead_memWrite {m m' : Memory} {a : Nat} {v : Word} (hw : m.wf) (h : memWrite m a v = some m') (b : Nat) :
    memRead m' b = if b = a then some v else memRead m b := by
  obtain ⟨ha, rfl⟩ := memWrite_some h
  by_cases hb : b = a
  · subst hb
    simp [memRead, ha, lookupCell_insertCell hw.1]
  · simp [memRead, lookupCell_insertCell hw.1, hb]

/-- `insertCells`, the placing of a program's cells, keeps the list canonical within any bound that holds them. -/
theorem insertCells_wf (vs : List Word) (l : List (Nat × Word)) (a n : Nat)
    (h : l.Pairwise (fun p q => p.1 < q.1) ∧ ∀ p ∈ l, p.1 < n ∧ p.2 ≠ 0#32) (hn : a + vs.length ≤ n) :
    (insertCells l a vs).Pairwise (fun p q => p.1 < q.1) ∧ ∀ p ∈ insertCells l a vs, p.1 < n ∧ p.2 ≠ 0#32 := by
  induction vs generalizing l a with
  | nil => exact h
  | cons v vs ih =>
    simp only [List.length_cons] at hn
    refine ih (insertCell l a v) (a + 1) ⟨insertCell_rising h.1 a v, fun p hp => ?_⟩ (by omega)
    rcases mem_insertCell hp with hp | ⟨rfl, hv⟩
    · exact h.2 p hp
    · exact ⟨by simp only; omega, hv⟩

theorem placeAndRun_wf {s : State} (h : s.mem.wf) (vs : List Word) : (placeAndRun vs s).mem.wf :=
  insertCells_wf vs _ _ _
    ⟨h.1, fun p hp => ⟨Nat.lt_of_lt_of_le (h.2 p hp).1 (Nat.le_max_left _ _), (h.2 p hp).2⟩⟩ (Nat.le_max_right _ _)

end Sys2Proof.Machine
end

