-- ==== Sys2Proof/Laws/Fetch.lean ====
section
/-! SUPPORT. Everything fetching can answer, said once. -/

namespace Sys2Proof.Machine

/-- What `operandCells` holds: as many of the three operand cells as exist. -/
theorem operandCells_cases (s : State) :
    (memRead s.mem (cellAddr s 1) = none ∧ operandCells s = []) ∨
    (∃ c1, memRead s.mem (cellAddr s 1) = some c1 ∧ memRead s.mem (cellAddr s 2) = none ∧ operandCells s = [c1]) ∨
    (∃ c1 c2, memRead s.mem (cellAddr s 1) = some c1 ∧ memRead s.mem (cellAddr s 2) = some c2 ∧
      memRead s.mem (cellAddr s 3) = none ∧ operandCells s = [c1, c2]) ∨
    (∃ c1 c2 c3, memRead s.mem (cellAddr s 1) = some c1 ∧ memRead s.mem (cellAddr s 2) = some c2 ∧
      memRead s.mem (cellAddr s 3) = some c3 ∧ operandCells s = [c1, c2, c3]) := by
  cases h1 : memRead s.mem (cellAddr s 1) <;> cases h2 : memRead s.mem (cellAddr s 2) <;>
    cases h3 : memRead s.mem (cellAddr s 3) <;> simp [operandCells, h1, h2, h3]

/-- Everything fetching can answer: the opcode cell does not exist; HALT; an unknown opcode; operand cell `k` does
not exist; an invalid operand cell; an arithmetic instruction. -/
theorem fetch_cases (s : State) :
    (memRead s.mem s.pc.toNat = none ∧ fetch s = .fault .memoryFault (addrInfo s.pc.toNat)) ∨
    (memRead s.mem s.pc.toNat = some 0#32 ∧ fetch s = .instr .halt) ∨
    (∃ v, memRead s.mem s.pc.toNat = some v ∧ (v.toInt < 0 ∨ 4 < v.toInt) ∧ fetch s = .fault .unknownOpcode v) ∨
    (∃ op k, memRead s.mem s.pc.toNat = some (aluCode op) ∧ 1 ≤ k ∧ k ≤ 3 ∧ s.pc.toNat + (k - 1) < s.mem.size ∧
      s.mem.size ≤ s.pc.toNat + k ∧ fetch s = .fault .memoryFault (addrInfo (s.pc.toNat + k))) ∨
    (∃ op c1 c2 c3, memRead s.mem s.pc.toNat = some (aluCode op) ∧ memRead s.mem (s.pc.toNat + 1) = some c1 ∧
      memRead s.mem (s.pc.toNat + 2) = some c2 ∧ memRead s.mem (s.pc.toNat + 3) = some c3 ∧
      ((∃ c, decodeOperands c1 c2 c3 = .invalid c ∧ fetch s = .fault .invalidRegister c) ∨
       (∃ rd ra rb, c1 = regCell rd ∧ c2 = regCell ra ∧ c3 = regCell rb ∧
        fetch s = .instr (aluInstr op c1 c2 c3)))) := by
  cases h0 : memRead s.mem s.pc.toNat with
  | none => exact .inl ⟨rfl, by simp [fetch, fetchCells, cellAddr, h0, decode, decodedFault]⟩
  | some opc =>
    refine .inr ?_
    rcases decodeOpcode_cases opc with ⟨rfl, hd⟩ | ⟨op, rfl, hd⟩ | ⟨hu, hd⟩
    · exact .inl ⟨rfl, by simp [fetch, fetchCells, cellAddr, h0, hd, decode, decodedFault]⟩
    · refine .inr (.inr ?_)
      have hf : fetch s = decodedFault s (decode (aluCode op :: operandCells s)) := by
        simp [fetch, fetchCells, cellAddr, h0]
      rcases operandCells_cases s with ⟨h1, ho⟩ | ⟨c1, h1, h2, ho⟩ | ⟨c1, c2, h1, h2, h3, ho⟩ |
        ⟨c1, c2, c3, h1, h2, h3, ho⟩
      · refine .inl ⟨op, 1, rfl, le_rfl, by omega, memRead_lt h0, memRead_eq_none.mp h1, ?_⟩
        simp [hf, ho, decode, decodedFault, cellAddr]
      · refine .inl ⟨op, 2, rfl, by omega, by omega, memRead_lt h1, memRead_eq_none.mp h2, ?_⟩
        simp [hf, ho, decode, decodedFault, cellAddr]
      · refine .inl ⟨op, 3, rfl, by omega, by omega, memRead_lt h2, memRead_eq_none.mp h3, ?_⟩
        simp [hf, ho, decode, decodedFault, cellAddr]
      · refine .inr ⟨op, c1, c2, c3, rfl, h1, h2, h3, ?_⟩
        rcases decodeOperands_cases c1 c2 c3 with ⟨-, hv⟩ | ⟨_, -, -, hv⟩ | ⟨_, _, -, -, -, hv⟩ |
          ⟨rd, ra, rb, e1, e2, e3, hv⟩
        · exact .inl ⟨c1, hv, by simp [hf, ho, decode, hv, decodedFault]⟩
        · exact .inl ⟨c2, hv, by simp [hf, ho, decode, hv, decodedFault]⟩
        · exact .inl ⟨c3, hv, by simp [hf, ho, decode, hv, decodedFault]⟩
        · exact .inr ⟨rd, ra, rb, decodeOperand_eq_regCell e1, decodeOperand_eq_regCell e2,
            decodeOperand_eq_regCell e3, by simp [hf, ho, decode, hv, decodedFault]⟩
    · exact .inr (.inl ⟨opc, rfl, hu, by simp [fetch, fetchCells, cellAddr, h0, hd, decode, decodedFault]⟩)

end Sys2Proof.Machine
end

