-- ==== Sys2Proof/Laws/Step.lean ====
section
/-! SUPPORT. Everything a step can do, said once. -/

namespace Sys2Proof.Machine

theorem step_of_not_running {s : State} (h : s.st ≠ .running) : step s = .next s := by
  cases hs : s.st <;> simp_all [step, cycle]

theorem step_of_fetch_instr {s : State} {i : Instr} (h : s.st = .running) (hf : fetch s = .instr i) :
    step s = exec i s := by
  simp [step, cycle, runningCycle, h, hf]

theorem step_of_fetch_fault {s : State} {k : FaultKind} {v : Word} (h : s.st = .running)
    (hf : fetch s = .fault k v) : step s = .next (raise k v s) := by
  simp [step, cycle, runningCycle, h, hf]

/-- Everything a running core's step can do, with the cells that decide it. -/
theorem step_running_cases {s : State} (h : s.st = .running) :
    (memRead s.mem s.pc.toNat = none ∧ step s = .next (raise .memoryFault (addrInfo s.pc.toNat) s)) ∨
    (memRead s.mem s.pc.toNat = some 0#32 ∧ step s = .next (haltRun s)) ∨
    (∃ v, memRead s.mem s.pc.toNat = some v ∧ (v.toInt < 0 ∨ 4 < v.toInt) ∧
      step s = .next (raise .unknownOpcode v s)) ∨
    (∃ op k, memRead s.mem s.pc.toNat = some (aluCode op) ∧ 1 ≤ k ∧ k ≤ 3 ∧ s.pc.toNat + (k - 1) < s.mem.size ∧
      s.mem.size ≤ s.pc.toNat + k ∧ step s = .next (raise .memoryFault (addrInfo (s.pc.toNat + k)) s)) ∨
    (∃ op c1 c2 c3, memRead s.mem s.pc.toNat = some (aluCode op) ∧ memRead s.mem (s.pc.toNat + 1) = some c1 ∧
      memRead s.mem (s.pc.toNat + 2) = some c2 ∧ memRead s.mem (s.pc.toNat + 3) = some c3 ∧
      ((∃ c, decodeOperands c1 c2 c3 = .invalid c ∧ step s = .next (raise .invalidRegister c s)) ∨
       (∃ rd ra rb, c1 = regCell rd ∧ c2 = regCell ra ∧ c3 = regCell rb ∧
        step s = .next (execRegs op rd ra rb s)))) := by
  rcases fetch_cases s with ⟨h0, hf⟩ | ⟨h0, hf⟩ | ⟨v, h0, hv, hf⟩ | ⟨op, k, h0, h1, h2, h3, h4, hf⟩ |
    ⟨op, c1, c2, c3, h0, h1, h2, h3, hr⟩
  · exact .inl ⟨h0, step_of_fetch_fault h hf⟩
  · exact .inr (.inl ⟨h0, (step_of_fetch_instr h hf).trans (exec_halt s)⟩)
  · exact .inr (.inr (.inl ⟨v, h0, hv, step_of_fetch_fault h hf⟩))
  · exact .inr (.inr (.inr (.inl ⟨op, k, h0, h1, h2, h3, h4, step_of_fetch_fault h hf⟩)))
  · refine .inr (.inr (.inr (.inr ⟨op, c1, c2, c3, h0, h1, h2, h3, ?_⟩)))
    rcases hr with ⟨c, hc, hf⟩ | ⟨rd, ra, rb, rfl, rfl, rfl, hf⟩
    · exact .inl ⟨c, hc, step_of_fetch_fault h hf⟩
    · exact .inr ⟨rd, ra, rb, rfl, rfl, rfl, by rw [step_of_fetch_instr h hf, exec_aluInstr, execArith_regCell]⟩

/-- The three ways a running core's step ends, in terms of the shared operations. -/
theorem step_running_ends {s : State} (h : s.st = .running) :
    step s = .next (haltRun s) ∨
    (∃ k v, k ≠ .none ∧ k ≠ .outOfBounds ∧ step s = .next (raise k v s)) ∨
    (∃ rd v, s.pc.toNat + 3 < s.mem.size ∧ step s = .next (commit rd v s)) := by
  rcases step_running_cases h with ⟨-, hs⟩ | ⟨-, hs⟩ | ⟨v, -, -, hs⟩ | ⟨op, k, -, -, -, -, -, hs⟩ |
    ⟨op, c1, c2, c3, -, -, -, h3, ⟨c, -, hs⟩ | ⟨rd, ra, rb, -, -, -, hs⟩⟩
  · exact .inr (.inl ⟨.memoryFault, _, nofun, nofun, hs⟩)
  · exact .inl hs
  · exact .inr (.inl ⟨.unknownOpcode, _, nofun, nofun, hs⟩)
  · exact .inr (.inl ⟨.memoryFault, _, nofun, nofun, hs⟩)
  · exact .inr (.inl ⟨.invalidRegister, _, nofun, nofun, hs⟩)
  · rcases execRegs_cases op rd ra rb s with ⟨-, -, he⟩ | ⟨-, he⟩
    · exact .inr (.inl ⟨.divisionByZero, _, nofun, nofun, by rw [hs, he]⟩)
    · exact .inr (.inr ⟨rd, _, memRead_lt h3, by rw [hs, he]⟩)

end Sys2Proof.Machine
end

