-- ==== Sys2Proof/Laws/Commands.lean ====
section
/-! SUPPORT. What each host command does when the core accepts it. -/

namespace Sys2Proof.Machine

theorem serve_of_running {s : State} (h : s.st = .running) (c : Command) : serve c s = none := by
  simp [serve, h]

/-- Everything a host command other than RUN can do to the state. -/
theorem serve_cases {s t : State} {c : Command} {a : Answer} (h : serve c s = some (a, t)) :
    s.st ≠ .running ∧
    ((c = .reset ∧ a = .ok ∧ t = State.resetWith s.mem.size) ∨
     (∃ addr v m, c = .memWrite addr v ∧ a = .ok ∧ memWrite s.mem addr.toNat v = some m ∧ t = { s with mem := m }) ∨
     (∃ addr v, c = .memWrite addr v ∧ a = .err .outOfBounds addr ∧ s.mem.size ≤ addr.toNat ∧ t = s) ∨
     (∃ addr v, c = .memRead addr ∧ a = .value v ∧ memRead s.mem addr.toNat = some v ∧ t = s) ∨
     (∃ addr, c = .memRead addr ∧ a = .err .outOfBounds addr ∧ s.mem.size ≤ addr.toNat ∧ t = s) ∨
     (∃ idx v r, c = .setReg idx v ∧ a = .ok ∧ decodeOperand idx = some r ∧ t = writeReg r v s) ∨
     (∃ idx v, c = .setReg idx v ∧ a = .err .invalidRegister idx ∧ decodeOperand idx = none ∧ t = s) ∨
     (∃ idx r, c = .getReg idx ∧ a = .value (readReg s r) ∧ decodeOperand idx = some r ∧ t = s) ∨
     (∃ idx, c = .getReg idx ∧ a = .err .invalidRegister idx ∧ decodeOperand idx = none ∧ t = s) ∨
     (c = .run ∧ a = endAnswer t ∧ runSteps (runBound s) (acceptRun s) = some t) ∨
     (c = .getStatus ∧ a = .status s.st s.faultKind s.faultInfo s.pc ∧ t = s)) := by
  by_cases hr : s.st = .running
  · simp [serve, hr] at h
  refine ⟨hr, ?_⟩
  cases c with
  | reset => simp_all [serve, serveReset]
  | memWrite addr v =>
    cases hm : memWrite s.mem addr.toNat v with
    | none =>
      have : s.mem.size ≤ addr.toNat := by
        by_contra hn
        simp [memWrite, Nat.lt_of_not_le hn] at hm
      simp_all [serve, serveMemWrite]
    | some m => simp_all [serve, serveMemWrite]
  | memRead addr =>
    cases hm : memRead s.mem addr.toNat with
    | none =>
      have := memRead_eq_none.mp hm
      simp_all [serve, serveMemRead]
    | some v => simp_all [serve, serveMemRead]
  | setReg idx v => cases hd : decodeOperand idx <;> simp_all [serve, serveSetReg]
  | getReg idx =>
    cases hd : decodeOperand idx <;> simp only [serve, serveGetReg, hr, hd, if_false, Option.some.injEq,
      Prod.mk.injEq] at h <;> obtain ⟨rfl, rfl⟩ := h <;> simp [hd]
  | run =>
    simp only [serve, hr, if_false, serveRun, Option.map_eq_some_iff, Prod.mk.injEq] at h
    obtain ⟨u, hu, rfl, rfl⟩ := h
    simp [hu]
  | getStatus =>
    simp only [serve, serveGetStatus, hr, if_false, Option.some.injEq, Prod.mk.injEq] at h
    obtain ⟨rfl, rfl⟩ := h
    simp

theorem runSteps_of_not_running {s : State} (h : s.st ≠ .running) (n : Nat) : runSteps n s = some s := by
  cases n <;> simp [runSteps, h]

theorem runSteps_succ_of_next {s t : State} (h : s.st = .running) (hs : step s = .next t) (n : Nat) :
    runSteps (n + 1) s = runSteps n t := by
  simp [runSteps, h, hs]

end Sys2Proof.Machine
end

