-- ==== Sys2Proof/Laws/PerInstr.lean ====
section
/-! SUPPORT. A fact about every instruction as syntax, one lemma per constructor: the first of its cells decodes to
its class, and a format R instruction has four cells where HALT has one (spec/30_encoding.md R51, R54). -/

namespace Sys2Proof.Laws.OpcodeCell

/-- The class of an instruction, from its constructor. -/
def opcodeClassOf : Instr → OpcodeClass
  | .halt => .halt
  | .add _ _ _ => .alu .add
  | .sub _ _ _ => .alu .sub
  | .mul _ _ _ => .alu .mul
  | .div _ _ _ => .alu .div

/-- The instruction's encoding opens with an opcode cell of its class and has the length of its format. -/
def Statement (i : Instr) : Prop :=
  ((encode i).head?.map decodeOpcode) = some (opcodeClassOf i) ∧
    (encode i).length = if opcodeClassOf i = .halt then 1 else 4

theorem halt : Statement .halt := ⟨rfl, rfl⟩
theorem add (rd ra rb : Word) : Statement (.add rd ra rb) := ⟨rfl, rfl⟩
theorem sub (rd ra rb : Word) : Statement (.sub rd ra rb) := ⟨rfl, rfl⟩
theorem mul (rd ra rb : Word) : Statement (.mul rd ra rb) := ⟨rfl, rfl⟩
theorem div (rd ra rb : Word) : Statement (.div rd ra rb) := ⟨rfl, rfl⟩

end Sys2Proof.Laws.OpcodeCell
end

