-- ==== Sys2Proof/Tests/Slice0.lean ====
section
/-! SUPPORT. The model's own tests (expected values from spec/95_test_vectors.md and the encoding tables of
spec/30_encoding.md) and, for every statement with hypotheses, a witness that meets them. -/

namespace Sys2Proof.Tests

open Sys2Proof Sys2Proof.Machine Sys2Proof.Certificates

/-- A core of `size` cells in run state `st` with `prog` at address 0 and the four registers given. -/
def coreWith (st : RunState) (size : Nat) (prog : List Int) (x0 x1 x2 x3 : Int) : State where
  mem := { size := size, cells := insertCells [] 0 (prog.map (BitVec.ofInt 32)) }
  x := #v[BitVec.ofInt 32 x0, BitVec.ofInt 32 x1, BitVec.ofInt 32 x2, BitVec.ofInt 32 x3]
  pc := 0#32
  st := st
  faultKind := .none
  faultInfo := 0#32

/-- A running core: what RUN makes of reset, load and seed (70_reset_and_hazards.md R172). -/
def running (size : Nat) (prog : List Int) (x0 x1 x2 x3 : Int) : State := coreWith .running size prog x0 x1 x2 x3

/-- What a test looks at after a step: the registers as signed integers, `pc`, the run state, the record. -/
def look (o : Host.Outcome State Fault Refusal) : Option (List Int × Nat × RunState × FaultKind × Int) :=
  match o with
  | .next s => some (s.x.toList.map BitVec.toInt, s.pc.toNat, s.st, s.faultKind, s.faultInfo.toInt)
  | .fault _ => none
  | .refused _ => none

/-- The registers after step 1 of `OP r0, r1, r2`, its result first. -/
def result (op a b : Int) : Option (List Int × Nat × RunState × FaultKind × Int) :=
  look (step (running 5 [op, 0, 1, 2, 0] 0 a b 0))

/-! ## WellFormed: one ill-formed term for each check -/

theorem test_wf_rd_too_big : (Instr.add 4#32 0#32 0#32).wellFormed = false := by decide
theorem test_wf_ra_negative : (Instr.add 0#32 0xFFFFFFFF#32 0#32).wellFormed = false := by decide
theorem test_wf_rb_low_bits_zero : (Instr.add 0#32 0#32 260#32).wellFormed = false := by decide
theorem test_wf_sub_checks : (Instr.sub 4#32 0#32 0#32).wellFormed = false ∧
    (Instr.sub 0#32 4#32 0#32).wellFormed = false ∧ (Instr.sub 3#32 3#32 4#32).wellFormed = false := by decide
theorem test_wf_mul_checks : (Instr.mul 0x80000000#32 0#32 0#32).wellFormed = false ∧
    (Instr.mul 0#32 4#32 0#32).wellFormed = false ∧ (Instr.mul 0#32 0#32 4#32).wellFormed = false := by decide
theorem test_wf_div_checks : (Instr.div 7#32 1#32 2#32).wellFormed = false ∧
    (Instr.div 0#32 5#32 0#32).wellFormed = false ∧ (Instr.div 0#32 0#32 6#32).wellFormed = false := by decide
theorem test_wf_accepts : Instr.halt.wellFormed = true ∧ (Instr.div 3#32 0#32 3#32).wellFormed = true := by decide

/-! ## Decode: each constructor's cells written out from 30_encoding.md R54, R61 -/

theorem test_decode_halt : decode [0x00000000#32] = .instr .halt := by decide
theorem test_decode_add : decode [0x00000001#32, 0x00000000#32, 0x00000001#32, 0x00000002#32] =
    .instr (.add 0#32 1#32 2#32) := by decide
theorem test_decode_sub : decode [0x00000002#32, 0x00000003#32, 0x00000001#32, 0x00000001#32] =
    .instr (.sub 3#32 1#32 1#32) := by decide
theorem test_decode_mul : decode [0x00000003#32, 0x00000000#32, 0x00000000#32, 0x00000003#32] =
    .instr (.mul 0#32 0#32 3#32) := by decide
theorem test_decode_div : decode [0x00000004#32, 0x00000002#32, 0x00000000#32, 0x00000003#32] =
    .instr (.div 2#32 0#32 3#32) := by decide
/-- V-U5 to V-U7: the whole cell is compared, and a missing operand does not matter. -/
theorem test_decode_unknown : decode [256#32] = .reject (.unknownOpcode 256#32) ∧
    decode [257#32, 0#32, 0#32, 0#32] = .reject (.unknownOpcode 257#32) ∧
    decode [5#32] = .reject (.unknownOpcode 5#32) := by decide
/-- V-I4, V-I5, V-I9, V-F4. -/
theorem test_decode_invalid : decode [1#32, 4#32, 5#32, 6#32] = .reject (.invalidRegister 4#32) ∧
    decode [1#32, 0#32, 4#32, 0xFFFFFFFF#32] = .reject (.invalidRegister 4#32) ∧
    decode [1#32, 0#32, 0#32, 260#32] = .reject (.invalidRegister 260#32) ∧
    decode [1#32, 9#32, 9#32] = .reject (.missingCell 3) := by decide
/-- Cell `k` is bits `32k+31 .. 32k`, and bits from `nbits` up are 0. -/
theorem test_table_word : decodeTableWord 32 2 = some (.sub 0#32 0#32 0#32) ∧
    decodeTableWord 128 (4 + 2 * 2 ^ 32 + 0 * 2 ^ 64 + 3 * 2 ^ 96) = some (.div 2#32 0#32 3#32) ∧
    decodeTableWord 32 (1 + 7 * 2 ^ 32) = some (.add 0#32 0#32 0#32) ∧ decodeTableWord 32 99 = none := by decide

/-! ## Instructions, one step each -/

/-- V-H2, V-H3: HALT as the last cell; garbage after it. -/
theorem test_halt_last_cell : look (step (running 1 [0] 7 8 9 10)) = some ([7, 8, 9, 10], 0, .halted, .none, 0) := by
  decide
theorem test_halt_ignores_cells :
    look (step (running 4 [0, 99, -7, 12345] 1 2 3 4)) = some ([1, 2, 3, 4], 0, .halted, .none, 0) := by decide
/-- V-A5. -/
theorem test_add_wraps : result 1 2147483647 1 = some ([-2147483648, 2147483647, 1, 0], 4, .running, .none, 0) := by
  decide
/-- V-L1. -/
theorem test_add_aliased :
    look (step (running 5 [1, 1, 1, 1, 0] 0 21 0 0)) = some ([0, 42, 0, 0], 4, .running, .none, 0) := by decide
/-- V-B2: the operand order. -/
theorem test_sub_order : result 2 10 30 = some ([-20, 10, 30, 0], 4, .running, .none, 0) := by decide
/-- V-L7. -/
theorem test_sub_rd_is_rb :
    look (step (running 5 [2, 2, 1, 2, 0] 0 10 3 0)) = some ([0, 10, 7, 0], 4, .running, .none, 0) := by decide
/-- V-C7, V-C13. -/
theorem test_mul_wraps : result 3 46341 46341 = some ([-2147479015, 46341, 46341, 0], 4, .running, .none, 0) := by
  decide
theorem test_mul_wraps_negative :
    result 3 123456789 1000 = some ([-1097262584, 123456789, 1000, 0], 4, .running, .none, 0) := by decide
/-- V-D3, V-D9, V-D17. -/
theorem test_div_truncates_and_wraps : result 4 (-7) 2 = some ([-3, -7, 2, 0], 4, .running, .none, 0) ∧
    result 4 (-2147483648) (-1) = some ([-2147483648, -2147483648, -1, 0], 4, .running, .none, 0) := by decide
theorem test_div_by_zero : result 4 20 0 = some ([0, 20, 0, 0], 0, .faulted, .divisionByZero, 2) := by decide

/-! ## Faults and their priority -/

/-- V-U2, V-U7, V-I8, V-F1, V-F3, V-F5. -/
theorem test_fault_unknown : look (step (running 4 [-1, 0, 0, 0] 0 0 0 0)) =
    some ([0, 0, 0, 0], 0, .faulted, .unknownOpcode, -1) ∧
    look (step (running 1 [5] 0 0 0 0)) = some ([0, 0, 0, 0], 0, .faulted, .unknownOpcode, 5) := by decide
theorem test_fault_register_before_divisor : look (step (running 4 [4, 7, 1, 2] 0 1 0 0)) =
    some ([0, 1, 0, 0], 0, .faulted, .invalidRegister, 7) := by decide
theorem test_fault_empty_memory : look (step (running 0 [] 0 0 0 0)) =
    some ([0, 0, 0, 0], 0, .faulted, .memoryFault, 0) := by decide
theorem test_fault_memory_before_register : look (step (running 2 [1, 9] 0 0 0 0)) =
    some ([0, 0, 0, 0], 0, .faulted, .memoryFault, 2) ∧
    look (step (running 4 [1, 9, 9, 9] 0 0 0 0)) = some ([0, 0, 0, 0], 0, .faulted, .invalidRegister, 9) := by decide

/-! ## Host commands -/

/-- V-M2, V-M3 and the canonical form: writing 0 removes the entry. -/
theorem test_mem_write : (serve (.memWrite 7#32 0xFFFFFFFF#32) (State.resetWith 8)).map (·.2.mem.cells) =
    some [(7, 0xFFFFFFFF#32)] ∧
    serve (.memWrite 8#32 5#32) (State.resetWith 8) = some (.err .outOfBounds 8#32, State.resetWith 8) ∧
    (serve (.memWrite 1#32 0#32) (coreWith .idle 4 [1, 2, 3] 0 0 0 0)).map (·.2.mem.cells) =
      some [(0, 1#32), (2, 3#32)] := by decide
/-- V-O3, V-O5, V-O6. -/
theorem test_registers : (serve (.setReg 3#32 0xFFFFFFFB#32) (State.resetWith 8)).map (fun p => readReg p.2 3) =
    some 0xFFFFFFFB#32 ∧
    (serve (.setReg 4#32 1#32) (State.resetWith 8)).map (·.1) = some (.err .invalidRegister 4#32) ∧
    (serve (.getReg 0xFFFFFFFF#32) (State.resetWith 8)).map (·.1) =
      some (.err .invalidRegister 0xFFFFFFFF#32) := by decide
/-- V-S4 with `MEM_SIZE = 5`, V-O13, V-H1 at the reset size. -/
theorem test_run : (serve .run (coreWith .idle 5 [1, 0, 1, 2, 0] 0 10 20 0)).map
    (fun p => (p.1, readReg p.2 0, p.2.pc)) = some (.halted, 30#32, 4#32) ∧
    serve .getStatus (running 5 [0] 0 0 0 0) = none ∧ (serve .run State.reset).map (·.1) = some .halted := by decide

/-- The host's placing of a word runs it as the first instruction after reset. -/
theorem test_withFetchWord : look (step (State.reset.withFetchWord 32 1)) =
    some ([0, 0, 0, 0], 4, .running, .none, 0) ∧
    look (step (State.reset.withFetchWord 32 0)) = some ([0, 0, 0, 0], 0, .halted, .none, 0) := by decide

/-! ## Witnesses: states and operands that meet each statement's hypotheses, each clause at a boundary -/

theorem witness_DecodeUndoesEncode : (Instr.div 3#32 0#32 3#32).wellFormed = true := by decide
theorem witness_DecodedCellsAreTheEncoding : decode [1#32, 3#32, 0#32, 3#32, 9#32] = .instr (.add 3#32 0#32 3#32) := by
  decide
theorem witness_OpcodeClassIsByWholeValue : (0#32).toInt = 0 ∧ (1#32).toInt = 1 ∧ (2#32).toInt = 2 ∧
    (3#32).toInt = 3 ∧ (4#32).toInt = 4 ∧ (0xFFFFFFFF#32).toInt < 0 ∧ 4 < (5#32).toInt := by decide
theorem witness_OperandCellIsItsOwnIndex : ¬ IsIndex 4#32 ∧ ¬ IsIndex 0xFFFFFFFF#32 ∧ IsIndex 3#32 ∧ IsIndex 0#32 := by
  decide
/-- For InvalidOperandTakesFault, each clause at a boundary cell. -/
theorem witness_InvalidOperandTakesFault : ¬ IsIndex 4#32 ∧ (IsIndex 3#32 ∧ ¬ IsIndex 0xFFFFFFFF#32) ∧
    (IsIndex 0#32 ∧ IsIndex 3#32 ∧ ¬ IsIndex 4#32) := by decide
theorem witness_DivCompletes : readReg (running 5 [] 0 20 (-1) 0) 2 ≠ 0#32 := by decide
/-- Its three clauses: a zero divisor, an operation other than DIV, and divisors other than 0 (1, and -1 under
`INT_MIN`). -/
theorem witness_OnlyDivByZeroRaisesArithmeticFault : readReg (running 5 [] 0 20 0 0) 2 = 0#32 ∧ AluOp.mul ≠ .div ∧
    readReg (running 5 [] 0 20 1 0) 2 ≠ 0#32 ∧ readReg (running 5 [] 0 (-2147483648) (-1) 0) 2 ≠ 0#32 ∧
    (readReg (running 5 [] 0 (-2147483648) (-1) 0) 1).toInt = -2147483648 ∧
    (readReg (running 5 [] 0 (-2147483648) (-1) 0) 2).toInt = -1 := by decide
/-- An arithmetic instruction answers a next state on legal and on illegal cells, in both forms of the frame. -/
theorem witness_ArithmeticFrame :
    look (exec (aluInstr .add 3#32 1#32 2#32) (running 5 [] 0 1 2 0)) = some ([0, 1, 2, 3], 4, .running, .none, 0) ∧
    look (exec (aluInstr .add 4#32 1#32 2#32) (running 5 [] 0 1 2 0)) =
      some ([0, 1, 2, 0], 0, .faulted, .invalidRegister, 4) := by decide
theorem witness_AliasedOperandsUseOldValues : readReg (running 5 [] 0 0 0 (-9)) 3 ≠ 0#32 ∧
    readReg (running 5 [] 0 0 0 0) 3 = 0#32 := by decide
theorem witness_DivisionRoundsTowardZero : readReg (running 5 [] 0 7 0 0) 2 = 0#32 ∧
    (readReg (running 5 [] 0 (-2147483648) (-1) 0) 2 ≠ 0#32 ∧
      (readReg (running 5 [] 0 (-2147483648) (-1) 0) 1).toInt = -2147483648 ∧
      (readReg (running 5 [] 0 (-2147483648) (-1) 0) 2).toInt = -1) ∧
    (readReg (running 5 [] 0 (-7) 2 0) 2 ≠ 0#32 ∧ (readReg (running 5 [] 0 (-7) 2 0) 1).toInt = -7 ∧
      (readReg (running 5 [] 0 (-7) 2 0) 2).toInt = 2) := by decide
/-- HALT as the whole memory, and an ADD of four cells. -/
theorem witness_StepRunsDecodedInstruction : (running 1 [0] 0 0 0 0).st = .running ∧ decode [0#32] = .instr .halt ∧
    (∀ k (h : k < [0#32].length), memRead (running 1 [0] 0 0 0 0).mem ((running 1 [0] 0 0 0 0).pc.toNat + k) =
      some [0#32][k]) ∧
    decode [1#32, 0#32, 1#32, 3#32] = .instr (.add 0#32 1#32 3#32) ∧
    (∀ k (h : k < [1#32, 0#32, 1#32, 3#32].length),
      memRead (running 4 [1, 0, 1, 3] 0 0 0 0).mem ((running 4 [1, 0, 1, 3] 0 0 0 0).pc.toNat + k) =
      some [1#32, 0#32, 1#32, 3#32][k]) := by decide
/-- A running state, for every statement whose only hypothesis is `st = Running`. -/
theorem witness_StepIsTheAssembledStep : (running 5 [1, 0, 1, 2, 0] 0 10 20 0).st = .running := by decide
/-- An opcode cell out of bounds at `pc = MEM_SIZE`; cells 0, -1, 5, 1 and 4. -/
theorem witness_OpcodeIsFetchedThenDecoded : (running 0 [] 0 0 0 0).mem.size ≤ (running 0 [] 0 0 0 0).pc.toNat ∧
    memRead (running 1 [0] 0 0 0 0).mem 0 = some 0#32 ∧ memRead (running 1 [-1] 0 0 0 0).mem 0 = some 0xFFFFFFFF#32 ∧
    memRead (running 1 [5] 0 0 0 0).mem 0 = some 5#32 ∧ memRead (running 1 [1] 0 0 0 0).mem 0 = some 1#32 ∧
    memRead (running 1 [4] 0 0 0 0).mem 0 = some 4#32 := by decide
/-- The undefined cells next to the defined ones, -1 and 5, and a step that ends in UnknownOpcode. -/
theorem witness_UnknownOpcodeExactlyWhenUndefined : (running 1 [5] 0 0 0 0).st = .running ∧
    memRead (running 1 [5] 0 0 0 0).mem 0 = some 5#32 ∧ 4 < (5#32).toInt ∧
    memRead (running 1 [-1] 0 0 0 0).mem 0 = some 0xFFFFFFFF#32 ∧ (0xFFFFFFFF#32).toInt < 0 ∧
    look (step (running 1 [5] 0 0 0 0)) = some ([0, 0, 0, 0], 0, .faulted, .unknownOpcode, 5) := by decide
/-- Opcode 1 and opcode 4 with the operand cells 1, 2, 3 missing in turn, and all present. -/
theorem witness_OperandFetchFaultsAtFirstMissingCell :
    memRead (running 1 [1] 0 0 0 0).mem 0 = some 1#32 ∧ (running 1 [1] 0 0 0 0).mem.size ≤ 0 + 1 ∧
    memRead (running 2 [4, 9] 0 0 0 0).mem 0 = some 4#32 ∧ (running 2 [4, 9] 0 0 0 0).mem.size ≤ 0 + 2 ∧
    0 + (2 - 1) < (running 2 [4, 9] 0 0 0 0).mem.size ∧ (running 3 [1, 9, 9] 0 0 0 0).mem.size ≤ 0 + 3 ∧
    0 + (3 - 1) < (running 3 [1, 9, 9] 0 0 0 0).mem.size ∧ 0 + 3 < (running 4 [1, 9, 9, 9] 0 0 0 0).mem.size := by decide
/-- Opcode cells 1 to 4 with their operand cells, legal, illegal and with a zero divisor. -/
theorem witness_ArithmeticStepsFollowTheirRules :
    (∀ code : Fin 4, memRead (running 5 [code.val + 1, 0, 1, 2, 0] 0 7 0 0).mem 0 = some (BitVec.ofNat 32 (code.val + 1)) ∧
      memRead (running 5 [code.val + 1, 0, 1, 2, 0] 0 7 0 0).mem 1 = some 0#32 ∧
      memRead (running 5 [code.val + 1, 0, 1, 2, 0] 0 7 0 0).mem 2 = some 1#32 ∧
      memRead (running 5 [code.val + 1, 0, 1, 2, 0] 0 7 0 0).mem 3 = some 2#32) ∧
    ((0 : RegIdx).val : Int) = (0#32).toInt ∧ ((1 : RegIdx).val : Int) = (1#32).toInt ∧
    ((2 : RegIdx).val : Int) = (2#32).toInt ∧ (readReg (running 5 [4, 0, 1, 2, 0] 0 7 0 0) 2).toInt = 0 ∧
    (readReg (running 5 [4, 0, 1, 2, 0] 0 7 0 0) 1).toInt ≠ 0 ∧
    memRead (running 4 [1, 4, -1, 5] 0 0 0 0).mem 1 = some 4#32 ∧ ¬ IsIndex 4#32 ∧
    memRead (running 4 [1, 0, -1, 5] 0 0 0 0).mem 2 = some 0xFFFFFFFF#32 ∧ ¬ IsIndex 0xFFFFFFFF#32 ∧
    memRead (running 4 [1, 0, 3, 5] 0 0 0 0).mem 3 = some 5#32 ∧ ¬ IsIndex 5#32 := by decide
theorem witness_HaltIsTheOnlyCleanEnd : memRead (running 1 [0] 0 0 0 0).mem 0 = some 0#32 ∧
    look (step (running 1 [0] 0 0 0 0)) = some ([0, 0, 0, 0], 0, .halted, .none, 0) := by decide
theorem witness_StepEndsInOneOfThreeWays : (running 1 [0] 0 0 0 0).st = .running ∧
    look (step (running 1 [1] 0 0 0 0)) = some ([0, 0, 0, 0], 0, .faulted, .memoryFault, 1) ∧
    look (step (running 4 [1, 0, 0, 0] 1 0 0 0)) = some ([2, 0, 0, 0], 4, .running, .none, 0) := by decide
theorem witness_FaultChangesOnlyStatusAndRecord :
    look (step (running 1 [1] 1 2 3 4)) = some ([1, 2, 3, 4], 0, .faulted, .memoryFault, 1) := by decide
theorem witness_StoppedCoreKeepsItsState : State.reset.st ≠ .running ∧ (coreWith .halted 1 [0] 0 0 0 0).st ≠ .running ∧
    (coreWith .faulted 1 [0] 0 0 0 0).st ≠ .running := by decide
/-- One step and a run of two steps, each with a next state. -/
theorem witness_RunsNeverWriteMemory : look (step (running 5 [1, 0, 1, 2, 0] 0 1 2 0)) =
    some ([3, 1, 2, 0], 4, .running, .none, 0) ∧
    look (Host.Core.run Sys2Proof.core 2 (running 5 [1, 0, 1, 2, 0] 0 1 2 0)) =
      some ([3, 1, 2, 0], 4, .halted, .none, 0) := by decide
/-- Two memories of different sizes that agree on the four cells at `pc`. -/
theorem witness_StepSeesOnlyItsOwnCells : (running 9 [1, 0, 1, 2, 7] 0 1 2 0).mem ≠ (running 4 [1, 0, 1, 2] 0 1 2 0).mem ∧
    (∀ k, k ≤ 3 → memRead (running 9 [1, 0, 1, 2, 7] 0 1 2 0).mem (0 + k) =
      memRead (running 4 [1, 0, 1, 2] 0 1 2 0).mem (0 + k)) ∧
    look (step (running 4 [1, 0, 1, 2] 0 1 2 0)) = some ([3, 1, 2, 0], 4, .running, .none, 0) := by decide
/-- A committing step, and one that does not commit. -/
theorem witness_OnlyTheDestinationRegisterChanges :
    look (step (running 4 [1, 3, 1, 2] 0 1 2 0)) = some ([0, 1, 2, 3], 4, .running, .none, 0) ∧
    look (step (running 1 [0] 5 6 7 8)) = some ([5, 6, 7, 8], 0, .halted, .none, 0) := by decide
/-- A committing step, a halting step, RESET, and a command that is neither RESET nor RUN. -/
theorem witness_PcChangesInThreeWays :
    look (step (running 4 [1, 3, 1, 2] 0 1 2 0)) = some ([0, 1, 2, 3], 4, .running, .none, 0) ∧
    look (step (running 1 [0] 5 6 7 8)) = some ([5, 6, 7, 8], 0, .halted, .none, 0) ∧
    (serve .reset (coreWith .halted 1 [0] 5 6 7 8)).isSome = true ∧
    (serve .getStatus (coreWith .halted 1 [0] 5 6 7 8)).isSome = true := by decide
/-- The same kinds of step and command, and a core that is not running. -/
theorem witness_RunStateTransitions : (coreWith .faulted 1 [0] 5 6 7 8).st ≠ .running ∧
    look (step (running 1 [9] 5 6 7 8)) = some ([5, 6, 7, 8], 0, .faulted, .unknownOpcode, 9) ∧
    look (step (coreWith .halted 1 [0] 5 6 7 8)) = some ([5, 6, 7, 8], 0, .halted, .none, 0) ∧
    (serve (.getReg 4#32) (coreWith .halted 1 [0] 5 6 7 8)).isSome = true := by decide
/-- The invariant holds of a running state with a program, at which every kind of step happens. -/
theorem witness_EveryStepKeepsTheInvariant : Inv (running 5 [1, 0, 1, 2, 0] 0 10 20 0) ∧
    look (step (running 5 [1, 0, 1, 2, 0] 0 10 20 0)) = some ([30, 10, 20, 0], 4, .running, .none, 0) :=
  ⟨⟨by decide, by decide, by decide, by decide⟩, by decide⟩
theorem witness_EveryCommandKeepsTheInvariant : Inv (coreWith .idle 5 [1, 0, 1, 2, 0] 0 10 20 0) ∧
    (serve .run (coreWith .idle 5 [1, 0, 1, 2, 0] 0 10 20 0)).isSome = true :=
  ⟨⟨by decide, by decide, by decide, by decide⟩, by decide⟩
theorem witness_ResetMeetsTheInvariant : (4294967292 : Nat) ≤ 4294967292 ∧ 0 ≤ 4294967292 := by decide
theorem witness_MemoryFaultRecordsMemSize : Inv (running 2 [1, 9] 0 0 0 0) ∧
    look (step (running 2 [1, 9] 0 0 0 0)) = some ([0, 0, 0, 0], 0, .faulted, .memoryFault, 2) :=
  ⟨⟨by decide, by decide, by decide, by decide⟩, by decide⟩
/-- A core to reset that has a cell; address `MEM_SIZE - 1` is in bounds. -/
theorem witness_ResetClearsEverything : (coreWith .faulted 1 [99] 1 2 3 4).st ≠ .running ∧
    0 < (coreWith .faulted 1 [99] 1 2 3 4).mem.size ∧ 1 ≤ (coreWith .faulted 1 [99] 1 2 3 4).mem.size := by decide
theorem witness_EmptyMemoryFaultsAtZero : (State.resetWith 0).st ≠ .running ∧ (State.resetWith 0).mem.size = 0 ∧
    (State.resetWith 0).pc = 0#32 := by decide
/-- The last cell and the first address past it. -/
theorem witness_HostMemoryWrite : (coreWith .idle 8 [1, 2] 0 0 0 0).mem.wf ∧
    (coreWith .idle 8 [1, 2] 0 0 0 0).st ≠ .running ∧ (7#32).toNat < (coreWith .idle 8 [1, 2] 0 0 0 0).mem.size ∧
    (coreWith .idle 8 [1, 2] 0 0 0 0).mem.size ≤ (8#32).toNat := by decide
theorem witness_MemoryLaws : (7#32).toNat < 8 ∧ (coreWith .idle 8 [1, 2] 0 0 0 0).mem.wf ∧
    (serve (.memWrite 1#32 0#32) (coreWith .idle 8 [1, 2] 0 0 0 0)).map (·.1) = some .ok ∧ 0#32 ≠ 1#32 ∧
    serve (.memRead 0#32) (coreWith .idle 8 [1, 2] 0 0 0 0) =
      some (.value 1#32, coreWith .idle 8 [1, 2] 0 0 0 0) ∧
    (coreWith .idle 8 [1, 2] 0 0 0 0).mem.size ≤ (8#32).toNat := by decide
theorem witness_HostMemoryRead : State.reset.st ≠ .running ∧ (4294967291#32).toNat < State.reset.mem.size ∧
    State.reset.mem.size ≤ (4294967292#32).toNat := by decide
theorem witness_HostRegisterWrite : State.reset.st ≠ .running ∧ ((3 : RegIdx).val : Int) = (3#32).toInt ∧
    ¬ IsIndex 4#32 ∧ ¬ IsIndex 0xFFFFFFFF#32 := by decide
theorem witness_HostRegisterRead : State.reset.st ≠ .running ∧ ((0 : RegIdx).val : Int) = (0#32).toInt ∧
    ¬ IsIndex 4#32 ∧ ¬ IsIndex 0xFFFFFFFF#32 := by decide
theorem witness_RunStepsToItsEnd : Inv (coreWith .idle 5 [1, 0, 1, 2, 0] 0 10 20 0) ∧
    (coreWith .idle 5 [1, 0, 1, 2, 0] 0 10 20 0).st ≠ .running :=
  ⟨⟨by decide, by decide, by decide, by decide⟩, by decide⟩
/-- A halted core at its HALT, and a step that faults. -/
theorem witness_RunAgainRepeatsTheEnd : Inv (coreWith .halted 1 [0] 1 2 3 4) ∧
    memRead (coreWith .halted 1 [0] 1 2 3 4).mem (coreWith .halted 1 [0] 1 2 3 4).pc.toNat = some 0#32 ∧
    look (step (running 5 [4, 0, 1, 2, 0] 0 20 0 0)) = some ([0, 20, 0, 0], 0, .faulted, .divisionByZero, 2) :=
  ⟨⟨by decide, by decide, by decide, by decide⟩, by decide, by decide⟩
theorem witness_FailedCommandChangesNothing :
    serve (.memRead 8#32) (State.resetWith 8) = some (.err .outOfBounds 8#32, State.resetWith 8) ∧
    serve (.setReg 4#32 1#32) (State.resetWith 8) = some (.err .invalidRegister 4#32, State.resetWith 8) := by decide
theorem witness_CommandsAcceptedExactlyWhenNotRunning : Inv (running 1 [0] 0 0 0 0) ∧ Inv State.reset :=
  ⟨⟨by decide, by decide, by decide, by decide⟩, ⟨by decide, by decide, by decide, by decide⟩⟩
theorem witness_StatusIsReadBack : State.reset.st ≠ .running := by decide
/-- A write answered Ok, and a run of one step from the state after it. -/
theorem witness_HostWritesAreSeenByTheRun : (State.resetWith 4).mem.wf ∧
    serve (.memWrite 0#32 99#32) (State.resetWith 4) = some (.ok, coreWith .idle 4 [99] 0 0 0 0) ∧
    look (Host.Core.run Sys2Proof.core 1 (acceptRun (coreWith .idle 4 [99] 0 0 0 0))) =
      some ([0, 0, 0, 0], 0, .faulted, .unknownOpcode, 99) := by decide
/-- Opcode 1 with a bad `rd` cell, opcode 4 with a bad `ra` cell, opcode 1 with a bad `rb` cell alone, each at a
boundary of `0 .. 3`; and a step that ends in InvalidRegister. -/
theorem witness_InvalidRegisterRecordsFirstBadCell :
    (∀ k : Fin 4, memRead (running 4 [1, 4, 0, 0] 0 0 0 0).mem k.val = [some 1#32, some 4#32, some 0#32, some 0#32][k.val]) ∧
    ¬ IsIndex 4#32 ∧
    (∀ k : Fin 4, memRead (running 4 [4, 3, -1, 9] 0 0 0 0).mem k.val =
      [some 4#32, some 3#32, some 0xFFFFFFFF#32, some 9#32][k.val]) ∧ IsIndex 3#32 ∧ ¬ IsIndex 0xFFFFFFFF#32 ∧
    (∀ k : Fin 4, memRead (running 4 [1, 0, 3, 4] 0 0 0 0).mem k.val = [some 1#32, some 0#32, some 3#32, some 4#32][k.val]) ∧
    IsIndex 0#32 ∧
    look (step (running 4 [1, 0, 3, 4] 0 0 0 0)) = some ([0, 0, 0, 0], 0, .faulted, .invalidRegister, 4) := by decide

end Sys2Proof.Tests
end

/-! SUPPORT and PROOFS for spec/10_state.md: how `pc` and `st` change (R15, R19). -/

namespace Sys2Proof.Machine

/-- The next state of a running core, with the opcode cell that a halt comes from: no other operation sets `pc` or
`st` in a step. -/
theorem next_of_running_step {s t : State} (h : s.st = .running) (hs : step s = .next t) :
    (memRead s.mem s.pc.toNat = some 0#32 ∧ t = haltRun s) ∨ (∃ k v, t = raise k v s) ∨
    (∃ rd v, t = commit rd v s) := by
  have ht {u : State} (hu : step s = .next u) : t = u := Host.Outcome.next.inj (hs.symm.trans hu)
  rcases step_running_cases h with ⟨-, hu⟩ | ⟨h0, hu⟩ | ⟨v, -, -, hu⟩ | ⟨op, k, -, -, -, -, -, hu⟩ |
    ⟨op, c1, c2, c3, -, -, -, -, ⟨c, -, hu⟩ | ⟨rd, ra, rb, -, -, -, hu⟩⟩
  · exact .inr (.inl ⟨_, _, ht hu⟩)
  · exact .inl ⟨h0, ht hu⟩
  · exact .inr (.inl ⟨_, _, ht hu⟩)
  · exact .inr (.inl ⟨_, _, ht hu⟩)
  · exact .inr (.inl ⟨_, _, ht hu⟩)
  · rcases execRegs_cases op rd ra rb s with ⟨-, -, he⟩ | ⟨-, he⟩
    · exact .inr (.inl ⟨_, _, (ht hu).trans he⟩)
    · exact .inr (.inr ⟨_, _, (ht hu).trans he⟩)

theorem next_of_stopped_step {s t : State} (h : s.st ≠ .running) (hs : step s = .next t) : t = s :=
  Host.Outcome.next.inj (hs.symm.trans (step_of_not_running h))

theorem serve_reset {s : State} (h : s.st ≠ .running) :
    serve .reset s = some (.ok, State.resetWith s.mem.size) := by
  simp [serve, serveReset, h]

/-- A command other than RESET and RUN can change the memory and the registers only. -/
theorem serve_changes_only_mem_and_x {c : Command} {s t : State} {a : Answer} (hreset : c ≠ .reset) (hrun : c ≠ .run)
    (h : serve c s = some (a, t)) : ∃ m x, t = { s with mem := m, x := x } := by
  obtain ⟨-, hc⟩ := serve_cases h
  rcases hc with ⟨e, -⟩ | ⟨_, _, m, -, -, -, ht⟩ | ⟨_, _, -, -, -, ht⟩ | ⟨_, _, -, -, -, ht⟩ | ⟨_, -, -, -, ht⟩ |
    ⟨_, v, r, -, -, -, ht⟩ | ⟨_, _, -, -, -, ht⟩ | ⟨_, _, -, -, -, ht⟩ | ⟨_, -, -, -, ht⟩ | ⟨e, -⟩ | ⟨-, -, ht⟩
  · exact absurd e hreset
  · exact ⟨m, s.x, ht⟩
  · exact ⟨_, _, ht⟩
  · exact ⟨_, _, ht⟩
  · exact ⟨_, _, ht⟩
  · exact ⟨s.mem, s.x.set r.val v, ht⟩
  · exact ⟨_, _, ht⟩
  · exact ⟨_, _, ht⟩
  · exact ⟨_, _, ht⟩
  · exact absurd e hrun
  · exact ⟨_, _, ht⟩

/-- R15 for a step: a commit is the only one that stays in Running, so the run states on both sides tell whether `pc`
moved. -/
theorem step_pc {s t : State} (hs : step s = .next t) :
    (s.st = .running ∧ t.st = .running → t.pc = s.pc + 4#32) ∧
    (¬ (s.st = .running ∧ t.st = .running) → t.pc = s.pc) := by
  by_cases hr : s.st = .running
  · rcases next_of_running_step hr hs with ⟨-, rfl⟩ | ⟨k, v, rfl⟩ | ⟨rd, v, rfl⟩
    · simp
    · simp
    · simp [hr]
  · simp [hr, next_of_stopped_step hr hs]

/-- Settles O31: the step clause is `step_pc`, the command clauses the reset state and the frame of the others. -/
theorem pcChangesInThreeWays : Obligations.PcChangesInThreeWays := by
  refine ⟨fun s t hs => step_pc hs, fun s t a h => ?_, fun c s t a hreset hrun h => ?_, acceptRun_pc⟩
  · obtain ⟨hr, -⟩ := serve_cases h
    cases (serve_reset hr).symm.trans h
    exact resetWith_pc _
  · obtain ⟨m, x, rfl⟩ := serve_changes_only_mem_and_x hreset hrun h
    rfl

/-- Settles O32: a running step is a halt, a raise or a commit, each with its own run state. -/
theorem runStateTransitions : Obligations.RunStateTransitions := by
  refine ⟨fun s hr => ⟨_, serve_reset hr, resetWith_st _⟩, acceptRun_st, fun s t hr hs => ?_,
    fun s t hr hs => ?_, fun c s t a hreset hrun h => ?_⟩
  · rcases next_of_running_step hr hs with ⟨h0, rfl⟩ | ⟨k, v, rfl⟩ | ⟨rd, v, rfl⟩
    · exact .inl ⟨haltRun_st s, h0⟩
    · exact .inr (.inl ⟨raise_st .., raise_pc ..⟩)
    · exact .inr (.inr ⟨(commit_st ..).trans hr, commit_pc ..⟩)
  · rw [next_of_stopped_step hr hs]
  · obtain ⟨m, x, rfl⟩ := serve_changes_only_mem_and_x hreset hrun h
    rfl

end Sys2Proof.Machine

/-! SUPPORT and PROOFS for spec/20_memory.md: the memory through the host's port (R33), and a memory of no cells
(R47). -/

namespace Sys2Proof.Machine

theorem memRead_resetWith {n a : Nat} (h : a < n) : memRead (State.resetWith n).mem a = some 0#32 :=
  memRead_of_lt h

theorem memWrite_eq_none {m : Memory} {a : Nat} {v : Word} : memWrite m a v = none ↔ m.size ≤ a := by
  simp [memWrite]

theorem serve_memRead_value_iff {s t : State} {a v : Word} :
    serve (.memRead a) s = some (.value v, t) ↔ s.st ≠ .running ∧ memRead s.mem a.toNat = some v ∧ t = s := by
  refine ⟨fun h => ?_, fun ⟨hr, hv, ht⟩ => by simp [serve, serveMemRead, hr, hv, ht]⟩
  obtain ⟨hr, hc⟩ := serve_cases h
  exact ⟨hr, by simpa using hc⟩

theorem serve_memRead_outOfBounds {s : State} {a : Word} (hr : s.st ≠ .running) (h : s.mem.size ≤ a.toNat) :
    serve (.memRead a) s = some (.err .outOfBounds a, s) := by
  simp [serve, serveMemRead, hr, memRead_eq_none.mpr h]

theorem serve_memRead_keeps_state {s t : State} {a : Word} {r : Answer} (h : serve (.memRead a) s = some (r, t)) :
    t = s := by
  obtain ⟨-, hc⟩ := serve_cases h
  have hc : (∃ v, r = .value v ∧ memRead s.mem a.toNat = some v ∧ t = s) ∨
      (r = .err .outOfBounds a ∧ s.mem.size ≤ a.toNat ∧ t = s) := by simpa using hc
  rcases hc with ⟨v, -, -, ht⟩ | ⟨-, -, ht⟩
  · exact ht
  · exact ht

theorem serve_memWrite_ok_iff {s t : State} {a v : Word} :
    serve (.memWrite a v) s = some (.ok, t) ↔
      s.st ≠ .running ∧ ∃ m, memWrite s.mem a.toNat v = some m ∧ t = { s with mem := m } := by
  refine ⟨fun h => ?_, fun ⟨hr, m, hm, ht⟩ => by simp [serve, serveMemWrite, hr, hm, ht]⟩
  obtain ⟨hr, hc⟩ := serve_cases h
  exact ⟨hr, by simpa using hc⟩

theorem serve_memWrite_outOfBounds {s : State} {a v : Word} (hr : s.st ≠ .running) (h : s.mem.size ≤ a.toNat) :
    serve (.memWrite a v) s = some (.err .outOfBounds a, s) := by
  simp [serve, serveMemWrite, hr, memWrite_eq_none.mpr h]

/-- After an accepted write the host reads the new value at its address and the old memory at every other one. -/
theorem serve_memRead_after_memWrite {s t : State} {a v b w : Word} (hw : s.mem.wf)
    (h : serve (.memWrite a v) s = some (.ok, t)) :
    serve (.memRead b) t = some (.value w, t) ↔ if b = a then v = w else memRead s.mem b.toNat = some w := by
  obtain ⟨hr, m, hm, rfl⟩ := serve_memWrite_ok_iff.mp h
  by_cases hb : b = a
  · simp [serve_memRead_value_iff, hr, memRead_memWrite hw hm, hb]
  · simp [serve_memRead_value_iff, hr, memRead_memWrite hw hm, hb, BitVec.toNat_inj]

/-- R91: a fetch past the last cell. -/
theorem step_of_missing_opcode {s : State} (hr : s.st = .running) (h : s.mem.size ≤ s.pc.toNat) :
    step s = .next (raise .memoryFault (addrInfo s.pc.toNat) s) := by
  have hnone : ∀ c, memRead s.mem s.pc.toNat ≠ some c := by simp [memRead_eq_none.mpr h]
  rcases step_running_cases hr with ⟨-, hs⟩ | ⟨h0, -⟩ | ⟨_, h0, -⟩ | ⟨_, _, h0, -⟩ | ⟨_, _, _, _, h0, -⟩
  · exact hs
  all_goals exact absurd h0 (hnone _)

/-- A RUN whose first step leaves Running ends with that step. -/
theorem serve_run_of_first_step {s t : State} (hr : s.st ≠ .running) (hs : step (acceptRun s) = .next t)
    (ht : t.st ≠ .running) : serve .run s = some (endAnswer t, t) := by
  have hrun : runSteps (runBound s) (acceptRun s) = some t :=
    (runSteps_succ_of_next (acceptRun_st s) hs _).trans (runSteps_of_not_running ht _)
  simp [serve, serveRun, hr, hrun]

/-- Settles O38: no address is below 0, and the first step of the RUN finds no opcode cell at `pc` = 0. -/
theorem emptyMemoryFaultsAtZero : Obligations.EmptyMemoryFaultsAtZero := by
  intro s hr hsize hpc
  have hout (a : Word) : s.mem.size ≤ a.toNat := hsize ▸ Nat.zero_le _
  refine ⟨fun a v => ⟨serve_memRead_outOfBounds hr (hout a), serve_memWrite_outOfBounds hr (hout a)⟩, ?_⟩
  have hs : step (acceptRun s) = .next (raise .memoryFault 0#32 (acceptRun s)) := by
    simpa [hpc, addrInfo] using step_of_missing_opcode (acceptRun_st s) (hout s.pc)
  exact serve_run_of_first_step hr hs (by simp)

/-- Settles O40, law by law in the order of R33. -/
theorem memoryLaws : Obligations.MemoryLaws := by
  refine ⟨fun n a ha => ?_, fun s t a v hw h => ⟨?_, fun b w hb hread => ?_⟩, fun s a v hr ha => ?_,
    fun s t a r h => serve_memRead_keeps_state h⟩
  · exact serve_memRead_value_iff.mpr ⟨by simp, memRead_resetWith ha, rfl⟩
  · exact (serve_memRead_after_memWrite hw h).mpr (by simp)
  · obtain ⟨-, hold, -⟩ := serve_memRead_value_iff.mp hread
    exact (serve_memRead_after_memWrite hw h).mpr (by simpa [hb] using hold)
  · exact ⟨serve_memRead_outOfBounds hr ha, serve_memWrite_outOfBounds hr ha⟩

end Sys2Proof.Machine

/-! SUPPORT and PROOFS for spec/30_encoding.md: one operand cell (R53), the verdict on three (R62), and the class of an
opcode cell (R52). -/

namespace Sys2Proof

open Certificates

/-- A negative cell has a set bit above bit 1, so the unsigned bound alone says the cell is valid. -/
theorem isIndex_iff_toNat_lt {c : Word} : IsIndex c ↔ c.toNat < 4 := by
  rw [IsIndex, BitVec.toInt_eq_toNat_cond]
  split <;> omega

/-- R53, "bits 31:2 being zero". -/
theorem isIndex_iff_ushiftRight {c : Word} : IsIndex c ↔ c >>> 2 = 0#32 := by
  have hzero : c >>> 2 = 0#32 ↔ c.toNat / 4 = 0 := by
    simp [← BitVec.toNat_inj, Nat.shiftRight_eq_div_pow]
  rw [isIndex_iff_toNat_lt, hzero, Nat.div_eq_zero_iff_lt (by decide)]

/-- The valid operand cells are the cells of the four indices. -/
theorem isIndex_iff_exists_regCell {c : Word} : IsIndex c ↔ ∃ r, c = regCell r := by
  constructor
  · intro h
    cases hr : decodeOperand c with
    | none => exact absurd h (decodeOperand_none.mp hr)
    | some r => exact ⟨r, decodeOperand_eq_regCell hr⟩
  · rintro ⟨r, rfl⟩
    exact isIndex_iff_toNat_lt.mpr (by simp)

theorem decodeOperands_invalid_rd {c1 : Word} (h : ¬ IsIndex c1) (c2 c3 : Word) :
    decodeOperands c1 c2 c3 = .invalid c1 := by
  simp only [decodeOperands, decodeOperand_none.mpr h]

theorem decodeOperands_invalid_ra {c2 : Word} (rd : RegIdx) (h : ¬ IsIndex c2) (c3 : Word) :
    decodeOperands (regCell rd) c2 c3 = .invalid c2 := by
  simp only [decodeOperands, decodeOperand_regCell, decodeOperand_none.mpr h]

theorem decodeOperands_invalid_rb {c3 : Word} (rd ra : RegIdx) (h : ¬ IsIndex c3) :
    decodeOperands (regCell rd) (regCell ra) c3 = .invalid c3 := by
  simp only [decodeOperands, decodeOperand_regCell, decodeOperand_none.mpr h]

/-- R53, "the register index is `c` (equivalently bits 1:0 of the cell)". -/
theorem regIdx_eq_regCell_value (r : RegIdx) :
    (r.val : Int) = (regCell r).toInt ∧ r.val = (regCell r).toNat % 4 := by
  simp [Nat.mod_eq_of_lt r.isLt]

/-- Settles O4: a valid cell is the cell of an index, and each clause is the verdict on such cells with the first
invalid one after them. -/
theorem operandCellIsItsOwnIndex : Obligations.OperandCellIsItsOwnIndex := by
  refine ⟨fun c => isIndex_iff_ushiftRight, fun c1 c2 c3 =>
    ⟨fun h1 => decodeOperands_invalid_rd h1 c2 c3, fun h1 h2 => ?_, fun h1 h2 h3 => ?_, fun h1 h2 h3 => ?_⟩⟩
  all_goals obtain ⟨rd, rfl⟩ := isIndex_iff_exists_regCell.mp h1
  · exact decodeOperands_invalid_ra rd h2 c3
  all_goals obtain ⟨ra, rfl⟩ := isIndex_iff_exists_regCell.mp h2
  · exact decodeOperands_invalid_rb rd ra h3
  obtain ⟨rb, rfl⟩ := isIndex_iff_exists_regCell.mp h3
  obtain ⟨hd, hd'⟩ := regIdx_eq_regCell_value rd
  obtain ⟨ha, ha'⟩ := regIdx_eq_regCell_value ra
  exact ⟨rd, ra, rb, decodeOperands_regCell rd ra rb, hd, hd', ha, ha', regIdx_eq_regCell_value rb⟩

@[simp] theorem decodeOpcode_zero : decodeOpcode 0#32 = .halt := rfl

/-- The whole signed value of an alu operation's opcode cell selects its class. -/
theorem decodeOpcode_of_toInt_eq_aluCode {c : Word} {op : AluOp} (h : c.toInt = (aluCode op).toInt) :
    decodeOpcode c = .alu op := by
  rw [BitVec.eq_of_toInt_eq h, decodeOpcode_aluCode]

theorem aluCode_toInt_bounds (op : AluOp) : 1 ≤ (aluCode op).toInt ∧ (aluCode op).toInt ≤ 4 := by
  cases op <;> decide

/-- R52: no cell outside `0 .. 4` is HALT or an alu operation. -/
theorem decodeOpcode_unknown {c : Word} (h : c.toInt < 0 ∨ 4 < c.toInt) : decodeOpcode c = .unknown c := by
  rcases decodeOpcode_cases c with ⟨rfl, -⟩ | ⟨op, rfl, -⟩ | ⟨-, hu⟩
  · exact absurd h (by decide)
  · have := aluCode_toInt_bounds op
    omega
  · exact hu

/-- Settles O3: HALT's cell, the four alu opcode cells by their signed values, and every other cell. -/
theorem opcodeClassIsByWholeValue : Obligations.OpcodeClassIsByWholeValue := by
  intro c
  refine ⟨fun h => ?_, decodeOpcode_of_toInt_eq_aluCode (op := .add), decodeOpcode_of_toInt_eq_aluCode (op := .sub),
    decodeOpcode_of_toInt_eq_aluCode (op := .mul), decodeOpcode_of_toInt_eq_aluCode (op := .div), decodeOpcode_unknown⟩
  have hc : c = 0#32 := BitVec.eq_of_toInt_eq h
  rw [hc, decodeOpcode_zero]

end Sys2Proof

/-! SUPPORT and PROOFS for spec/40_host_operations.md: what each command but RUN does (R71 to R75, R80), the RUN
straight after RESET, and the commands that fail (R78). -/

namespace Sys2Proof.Machine

theorem fetch_of_halt_opcode {s : State} (h : memRead s.mem s.pc.toNat = some 0#32) : fetch s = .instr .halt := by
  simp [fetch, fetchCells, cellAddr, h, decode, decodedFault]

/-- Where the opcode cell is HALT's, a RUN is accepted and its first step ends it. -/
theorem serve_run_of_halt_opcode {s : State} (hr : s.st ≠ .running) (h : memRead s.mem s.pc.toNat = some 0#32) :
    serve .run s = some (.halted, haltRun (acceptRun s)) :=
  serve_run_of_first_step hr
    ((step_of_fetch_instr (acceptRun_st s) (fetch_of_halt_opcode h)).trans (exec_halt _)) (by simp)

theorem haltRun_acceptRun_resetWith (n : Nat) :
    haltRun (acceptRun (State.resetWith n)) = { State.resetWith n with st := .halted } := rfl

/-- Settles O37: the reset state is R25's table, and the RUN finds 0, HALT's opcode, in cell 0. -/
theorem resetClearsEverything : Obligations.ResetClearsEverything := by
  intro s hr
  refine ⟨State.resetWith s.mem.size, serve_reset hr, rfl, fun a ha => memRead_resetWith ha,
    fun r => readReg_resetWith r _, rfl, rfl, rfl, rfl, fun hsize => ?_⟩
  rw [← haltRun_acceptRun_resetWith]
  exact serve_run_of_halt_opcode (by simp) (memRead_resetWith hsize)

theorem exists_memWrite_of_lt {m : Memory} {a : Nat} (h : a < m.size) (v : Word) : ∃ m', memWrite m a v = some m' :=
  Option.ne_none_iff_exists'.mp fun hn => absurd (memWrite_eq_none.mp hn) (Nat.not_le_of_lt h)

/-- Settles O39: the written memory reads by `memRead_memWrite`; the rest of the state is the command's frame. -/
theorem hostMemoryWrite : Obligations.HostMemoryWrite := by
  refine fun s addr v hw hr => ⟨fun ha => ?_, serve_memWrite_outOfBounds hr⟩
  obtain ⟨m, hm⟩ := exists_memWrite_of_lt ha v
  have hread := memRead_memWrite hw hm
  exact ⟨{ s with mem := m }, serve_memWrite_ok_iff.mpr ⟨hr, m, hm, rfl⟩, (hread _).trans (if_pos rfl),
    fun a hne => (hread a).trans (if_neg hne), rfl⟩

/-- A run's own faults are answered as `Faulted`, never as `Err`. -/
theorem err_ne_endAnswer (k : FaultKind) (v : Word) (s : State) : .err k v ≠ endAnswer s := by
  cases hs : s.st <;> simp [endAnswer, hs]

/-- Settles O46: of everything a command can do, four ends answer Err, two for memory and two for registers. -/
theorem failedCommandChangesNothing : Obligations.FailedCommandChangesNothing := by
  intro c s t kind info h
  obtain ⟨-, hc⟩ := serve_cases h
  simp only [Answer.err.injEq, err_ne_endAnswer, reduceCtorEq, false_and, and_false, exists_false, or_false,
    false_or] at hc
  rcases hc with ⟨addr, v, rfl, ⟨rfl, rfl⟩, -, rfl⟩ | ⟨addr, rfl, ⟨rfl, rfl⟩, -, rfl⟩ |
    ⟨idx, v, rfl, ⟨rfl, rfl⟩, -, rfl⟩ | ⟨idx, rfl, ⟨rfl, rfl⟩, -, rfl⟩
  · exact ⟨rfl, .inl ⟨rfl, .inr ⟨v, rfl⟩⟩⟩
  · exact ⟨rfl, .inl ⟨rfl, .inl rfl⟩⟩
  · exact ⟨rfl, .inr ⟨rfl, .inr ⟨v, rfl⟩⟩⟩
  · exact ⟨rfl, .inr ⟨rfl, .inl rfl⟩⟩

/-- Settles O41: below `MEM_SIZE` the cell's value exists, and the answer is that value. -/
theorem hostMemoryRead : Obligations.HostMemoryRead := by
  refine fun s addr hr => ⟨fun ha => ?_, serve_memRead_outOfBounds hr⟩
  have hv := memRead_of_lt ha
  exact ⟨_, hv, serve_memRead_value_iff.mpr ⟨hr, hv, rfl⟩⟩

/-- R53 for a host's index: the register it names is the one the operand decoder finds. -/
theorem decodeOperand_of_val_eq_toInt {c : Word} {r : RegIdx} (h : (r.val : Int) = c.toInt) :
    decodeOperand c = some r :=
  decodeOperand_some.mpr ⟨by omega, by omega, h⟩

theorem serve_setReg_ok {s : State} {idx : Word} {r : RegIdx} (hr : s.st ≠ .running)
    (hd : decodeOperand idx = some r) (v : Word) : serve (.setReg idx v) s = some (.ok, writeReg r v s) := by
  simp [serve, serveSetReg, hr, hd]

theorem serve_setReg_invalidRegister {s : State} {idx : Word} (hr : s.st ≠ .running)
    (hd : decodeOperand idx = none) (v : Word) :
    serve (.setReg idx v) s = some (.err .invalidRegister idx, s) := by
  simp [serve, serveSetReg, hr, hd]

theorem serve_getReg_value {s : State} {idx : Word} {r : RegIdx} (hr : s.st ≠ .running)
    (hd : decodeOperand idx = some r) : serve (.getReg idx) s = some (.value (readReg s r), s) := by
  simp [serve, serveGetReg, hr, hd]

theorem serve_getReg_invalidRegister {s : State} {idx : Word} (hr : s.st ≠ .running)
    (hd : decodeOperand idx = none) : serve (.getReg idx) s = some (.err .invalidRegister idx, s) := by
  simp [serve, serveGetReg, hr, hd]

/-- Settles O42: the index is decoded as an operand cell is, and the write is the register file's. -/
theorem hostRegisterWrite : Obligations.HostRegisterWrite := by
  refine fun s idx v hr => ⟨fun r h => ⟨writeReg r v s, ?_, ?_, fun q hq => ?_, rfl⟩, fun h => ?_⟩
  · exact serve_setReg_ok hr (decodeOperand_of_val_eq_toInt h) v
  · exact readReg_writeReg_same s r v
  · exact readReg_writeReg_ne s r v hq
  · exact serve_setReg_invalidRegister hr (decodeOperand_none.mpr h) v

/-- Settles O43: the index is decoded as an operand cell is. -/
theorem hostRegisterRead : Obligations.HostRegisterRead := fun _ _ hr =>
  ⟨fun _ h => serve_getReg_value hr (decodeOperand_of_val_eq_toInt h),
    fun h => serve_getReg_invalidRegister hr (decodeOperand_none.mpr h)⟩

theorem serve_getStatus {s : State} (hr : s.st ≠ .running) :
    serve .getStatus s = some (.status s.st s.faultKind s.faultInfo s.pc, s) := by
  simp [serve, serveGetStatus, hr]

/-- Settles O48: the codes are the tables of R18 and R141, entry by entry. -/
theorem statusIsReadBack : Obligations.StatusIsReadBack :=
  ⟨fun _ hr => serve_getStatus hr, rfl, rfl⟩

end Sys2Proof.Machine

/-! SUPPORT and PROOFS for spec/41_cycle.md: what the opcode cell decides (R91, R92), the operand fetch (R93), and the
three ends of a step (R90, R97, R98). -/

namespace Sys2Proof.Machine

theorem exists_aluCode_of_toInt_bounds {c : Word} (h1 : 1 ≤ c.toInt) (h4 : c.toInt ≤ 4) : ∃ op, c = aluCode op := by
  rcases decodeOpcode_cases c with ⟨rfl, -⟩ | ⟨op, hop, -⟩ | ⟨hu, -⟩
  · exact absurd h1 (by decide)
  · exact ⟨op, hop⟩
  · omega

@[simp] theorem addrInfo_toNat (a : Word) : addrInfo a.toNat = a := BitVec.ofNat_toNat 32 a

theorem step_of_halt_opcode {s : State} (hr : s.st = .running) (h : memRead s.mem s.pc.toNat = some 0#32) :
    step s = .next (haltRun s) :=
  (step_of_fetch_instr hr (fetch_of_halt_opcode h)).trans (exec_halt s)

theorem fetch_of_unknown_opcode {s : State} {c : Word} (h : memRead s.mem s.pc.toNat = some c)
    (hc : c.toInt < 0 ∨ 4 < c.toInt) : fetch s = .fault .unknownOpcode c := by
  simp [fetch, fetchCells, cellAddr, h, decodeOpcode_unknown hc, decode, decodedFault]

/-- Everything an arithmetic opcode's step can do: an operand cell is missing, or all three exist and the step takes
one of the two later faults or commits. -/
theorem step_of_alu_opcode {s : State} {op : AluOp} (hr : s.st = .running)
    (h : memRead s.mem s.pc.toNat = some (aluCode op)) :
    (∃ k, 1 ≤ k ∧ k ≤ 3 ∧ s.pc.toNat + (k - 1) < s.mem.size ∧ s.mem.size ≤ s.pc.toNat + k ∧
      step s = .next (raise .memoryFault (addrInfo (s.pc.toNat + k)) s)) ∨
    (s.pc.toNat + 3 < s.mem.size ∧
      ((∃ kind v, (kind = .invalidRegister ∨ kind = .divisionByZero) ∧ step s = .next (raise kind v s)) ∨
       ∃ rd v, step s = .next (commit rd v s))) := by
  have hopc {c : Word} (hc : memRead s.mem s.pc.toNat = some c) : 1 ≤ c.toInt ∧ c.toInt ≤ 4 :=
    Option.some.inj (h.symm.trans hc) ▸ aluCode_toInt_bounds op
  rcases step_running_cases hr with ⟨h0, -⟩ | ⟨h0, -⟩ | ⟨v, h0, hv, -⟩ | ⟨_, k, -, h1, h3, hlt, hle, hs⟩ |
    ⟨op', _, _, _, -, -, -, h3, ⟨c, -, hs⟩ | ⟨rd, ra, rb, -, -, -, hs⟩⟩
  · exact absurd (h0.symm.trans h) nofun
  · exact absurd (hopc h0) (by decide)
  · have := hopc h0
    omega
  · exact .inl ⟨k, h1, h3, hlt, hle, hs⟩
  · exact .inr ⟨memRead_lt h3, .inl ⟨_, c, .inl rfl, hs⟩⟩
  · rcases execRegs_cases op' rd ra rb s with ⟨-, -, he⟩ | ⟨-, he⟩
    · exact .inr ⟨memRead_lt h3, .inl ⟨_, _, .inr rfl, he ▸ hs⟩⟩
    · exact .inr ⟨memRead_lt h3, .inr ⟨rd, _, he ▸ hs⟩⟩

/-- Settles O20: one clause per verdict on the opcode cell; of an arithmetic opcode's ends none is a halt or an
UnknownOpcode. -/
theorem opcodeIsFetchedThenDecoded : Obligations.OpcodeIsFetchedThenDecoded := by
  refine fun s hr => ⟨fun hsize => ?_, fun opc h0 => ⟨fun hz => ?_, fun hu => ?_, fun h1 h4 => ?_⟩⟩
  · rw [step_of_missing_opcode hr hsize, addrInfo_toNat]
    rfl
  · have hopc : opc = 0#32 := BitVec.eq_of_toInt_eq hz
    exact step_of_halt_opcode hr (hopc ▸ h0)
  · exact step_of_fetch_fault hr (fetch_of_unknown_opcode h0 hu)
  · obtain ⟨op, rfl⟩ := exists_aluCode_of_toInt_bounds h1 h4
    rcases step_of_alu_opcode hr h0 with ⟨k, -, -, -, -, hs⟩ | ⟨-, ⟨kind, v, hk, hs⟩ | ⟨rd, v, hs⟩⟩
    · exact ⟨_, hs, by simp, by simp⟩
    · exact ⟨_, hs, by simp, by rcases hk with rfl | rfl <;> simp⟩
    · exact ⟨_, hs, by simp [hr], by simp [hr]⟩

/-- Settles O22: there is only one first missing operand cell, and with none missing the step's faults are the two
later ones. -/
theorem operandFetchFaultsAtFirstMissingCell : Obligations.OperandFetchFaultsAtFirstMissingCell := by
  intro s opc hr h0 h1 h4
  obtain ⟨op, rfl⟩ := exists_aluCode_of_toInt_bounds h1 h4
  rcases step_of_alu_opcode hr h0 with ⟨j, hj1, hj3, hjlt, hjle, hs⟩ | ⟨hlt, hend⟩
  · refine ⟨fun k hk1 hk3 hklt hkle => ?_, fun hall => by omega⟩
    have hkj : k = j := by omega
    exact hkj ▸ hs
  · refine ⟨fun k hk1 hk3 hklt hkle => by omega, fun _ => ?_⟩
    rcases hend with ⟨kind, v, hk, hs⟩ | ⟨rd, v, hs⟩
    · exact ⟨_, hs, by rcases hk with rfl | rfl <;> simp⟩
    · exact ⟨_, hs, by simp [hr]⟩

/-- Settles O25: the three ends are HALT's effect, the fault entry and the commit. -/
theorem stepEndsInOneOfThreeWays : Obligations.StepEndsInOneOfThreeWays := by
  intro s hr
  rcases step_running_ends hr with hs | ⟨k, v, -, -, hs⟩ | ⟨rd, v, -, hs⟩
  · exact ⟨_, hs, .inl ⟨haltRun_st s, rfl⟩⟩
  · exact ⟨_, hs, .inr (.inl ⟨raise_st .., k, v, rfl⟩)⟩
  · exact ⟨_, hs, .inr (.inr ⟨(commit_st ..).trans hr, rd, v, rfl⟩)⟩

/-- R141: the kinds a run can raise are all but None and OutOfBounds. -/
theorem faultKind_raised_by_run {k : FaultKind} (hnone : k ≠ .none) (hout : k ≠ .outOfBounds) :
    k = .memoryFault ∨ k = .unknownOpcode ∨ k = .invalidRegister ∨ k = .divisionByZero := by
  cases k <;> simp_all

/-- Settles O26: of the three ends only the fault entry is Faulted. -/
theorem faultChangesOnlyStatusAndRecord : Obligations.FaultChangesOnlyStatusAndRecord := by
  intro s t hr hs hf
  have ht {u : State} (hu : step s = .next u) : t = u := Host.Outcome.next.inj (hs.symm.trans hu)
  rcases step_running_ends hr with hu | ⟨k, v, hnone, hout, hu⟩ | ⟨rd, v, -, hu⟩
  · simp [ht hu] at hf
  · rw [ht hu]
    exact ⟨rfl, faultKind_raised_by_run hnone hout⟩
  · simp [ht hu, hr] at hf

end Sys2Proof.Machine

/-! PROOFS for spec/42_halt.md: HALT is the only way a run ends without a fault (R110). -/

namespace Sys2Proof.Machine

/-- Settles O24: a running core's step is a halt, a raise or a commit, and only the halt ends in Halted. -/
theorem haltIsTheOnlyCleanEnd : Obligations.HaltIsTheOnlyCleanEnd := by
  refine fun s hr => ⟨fun h0 => step_of_halt_opcode hr h0, fun t hs ht => ?_⟩
  rcases next_of_running_step hr hs with ⟨h0, -⟩ | ⟨k, v, rfl⟩ | ⟨rd, v, rfl⟩
  · exact h0
  · simp at ht
  · simp [hr] at ht

end Sys2Proof.Machine

/-! SUPPORT and PROOFS for spec/43_arithmetic.md: the alu's exact results and their wrapping (R120), truncating division
(R121), aliased operands (R122), and the whole step of the four instructions (R115 to R119). -/

namespace Sys2Proof.Machine

open Certificates

/-! ## The alu: an exact result, then `wrap32` -/

/-- The exact signed result of an alu operation, before `wrap32` (R116 to R119). -/
def aluExact : AluOp → Int → Int → Int
  | .add, a, b => a + b
  | .sub, a, b => a - b
  | .mul, a, b => a * b
  | .div, a, b => a.tdiv b

theorem aluFn_eq_wrap32_aluExact (op : AluOp) (a b : Word) :
    aluFn op a b = wrap32 (aluExact op a.toInt b.toInt) := by
  cases op <;> rfl

theorem wrap32_toInt_add (a b : Word) : wrap32 (a.toInt + b.toInt) = a + b :=
  BitVec.eq_of_toInt_eq (by simp [wrap32_toInt, BitVec.toInt_add])

theorem wrap32_toInt_sub (a b : Word) : wrap32 (a.toInt - b.toInt) = a - b :=
  BitVec.eq_of_toInt_eq (by simp [wrap32_toInt, BitVec.toInt_sub])

theorem wrap32_toInt_mul (a b : Word) : wrap32 (a.toInt * b.toInt) = a * b :=
  BitVec.eq_of_toInt_eq (by simp [wrap32_toInt, BitVec.toInt_mul])

/-- Wrapping keeps the residue modulo 2^32. -/
theorem dvd_wrap32_toInt_sub_self (z : Int) : (4294967296 : Int) ∣ (wrap32 z).toInt - z := by
  rw [wrap32_toInt]
  exact Int.dvd_bmod_sub_self

theorem toInt_eq_zero_iff {b : Word} : b.toInt = 0 ↔ b = 0#32 :=
  ⟨fun h => BitVec.eq_of_toInt_eq h, fun h => by simp [h]⟩

/-! ## What the instructions do on register indices -/

theorem committed_commit_wrap32 (s : State) (rd : RegIdx) (z : Int) : Committed s (commit rd (wrap32 z) s) rd z :=
  ⟨by rw [readReg_commit_same, wrap32_toInt], fun _ h => readReg_commit_ne s rd _ h, rfl, rfl, rfl, rfl, rfl⟩

theorem execRegs_of_zero_divisor {s : State} {rb : RegIdx} (h : readReg s rb = 0#32) (rd ra : RegIdx) :
    execRegs .div rd ra rb s = raise .divisionByZero (regCell rb) s := by
  rcases execRegs_cases .div rd ra rb s with ⟨-, -, he⟩ | ⟨hn, -⟩
  · exact he
  · exact absurd ⟨rfl, h⟩ hn

theorem execRegs_of_no_fault {op : AluOp} {s : State} {rb : RegIdx} (h : ¬ (op = .div ∧ readReg s rb = 0#32))
    (rd ra : RegIdx) :
    execRegs op rd ra rb s = commit rd (wrap32 (aluExact op (readReg s ra).toInt (readReg s rb).toInt)) s := by
  rcases execRegs_cases op rd ra rb s with ⟨ho, hb, -⟩ | ⟨-, he⟩
  · exact absurd ⟨ho, hb⟩ h
  · rw [he, aluFn_eq_wrap32_aluExact]

theorem exec_of_zero_divisor {s : State} {rb : RegIdx} (h : readReg s rb = 0#32) (rd ra : RegIdx) :
    exec (.div (regCell rd) (regCell ra) (regCell rb)) s = .next (raise .divisionByZero (regCell rb) s) := by
  rw [← execRegs_of_zero_divisor h rd ra, ← execArith_regCell]
  rfl

theorem exec_of_no_fault {op : AluOp} {s : State} {rb : RegIdx} (h : ¬ (op = .div ∧ readReg s rb = 0#32))
    (rd ra : RegIdx) :
    exec (aluInstr op (regCell rd) (regCell ra) (regCell rb)) s =
      .next (commit rd (wrap32 (aluExact op (readReg s ra).toInt (readReg s rb).toInt)) s) := by
  rw [exec_aluInstr, execArith_regCell, execRegs_of_no_fault h]

/-- Whatever registers the operands name, the committed value is the exact result on the old values, wrapped. -/
theorem exec_committed {op : AluOp} {s : State} {rb : RegIdx} (h : ¬ (op = .div ∧ readReg s rb = 0#32))
    (rd ra : RegIdx) :
    ∃ t, exec (aluInstr op (regCell rd) (regCell ra) (regCell rb)) s = .next t ∧
      Committed s t rd (aluExact op (readReg s ra).toInt (readReg s rb).toInt) :=
  ⟨_, exec_of_no_fault h rd ra, committed_commit_wrap32 s rd _⟩

/-- Settles O14: `exec_committed` at the aliased indices, where the exact result simplifies. -/
theorem aliasedOperandsUseOldValues : Obligations.AliasedOperandsUseOldValues := by
  intro s r
  refine ⟨?_, ?_, ?_, fun hne => ?_, fun hz => exec_of_zero_divisor hz r r, fun q => ?_, fun q => ?_⟩
  · rw [two_mul]
    exact exec_committed (op := .add) (by simp) r r
  · rw [← Int.sub_self (readReg s r).toInt]
    exact exec_committed (op := .sub) (by simp) r r
  · rw [pow_two]
    exact exec_committed (op := .mul) (by simp) r r
  · rw [← Int.tdiv_self (mt toInt_eq_zero_iff.mp hne)]
    exact exec_committed (op := .div) (by simp [hne]) r r
  · exact exec_committed (op := .sub) (by simp) r q
  · exact exec_committed (op := .sub) (by simp) r r

/-! ## Overflow (R120) -/

/-- An operation other than DIV raises nothing, and its result differs from the exact one by a multiple of 2^32. -/
theorem exec_wraps {op : AluOp} (hop : op ≠ .div) (s : State) (rd ra rb : RegIdx) :
    ∃ t, exec (aluInstr op (regCell rd) (regCell ra) (regCell rb)) s = .next t ∧ t.st = s.st ∧
      readReg t rd = wrap32 (aluExact op (readReg s ra).toInt (readReg s rb).toInt) ∧
      (4294967296 : Int) ∣ (readReg t rd).toInt - aluExact op (readReg s ra).toInt (readReg s rb).toInt := by
  refine ⟨_, exec_of_no_fault (fun h => hop h.1) rd ra, commit_st .., readReg_commit_same .., ?_⟩
  rw [readReg_commit_same]
  exact dvd_wrap32_toInt_sub_self _

/-- Settles O15: the wrapped exact result of each operation is the 32-bit vector result. -/
theorem overflowWrapsAsBitVectors : Obligations.OverflowWrapsAsBitVectors := by
  intro s rd ra rb
  simp only [← wrap32_toInt_add, ← wrap32_toInt_sub, ← wrap32_toInt_mul]
  exact ⟨exec_wraps (op := .add) nofun s rd ra rb, exec_wraps (op := .sub) nofun s rd ra rb,
    exec_wraps (op := .mul) nofun s rd ra rb⟩

/-! ## Division (R121) -/

theorem tdiv_nonneg_of_mul_nonneg {a b : Int} (h : 0 ≤ a * b) : 0 ≤ a.tdiv b := by
  rcases mul_nonneg_iff.mp h with ⟨ha, hb⟩ | ⟨ha, hb⟩
  · exact Int.tdiv_nonneg ha hb
  · exact Int.tdiv_nonneg_of_nonpos_of_nonpos ha hb

theorem tdiv_nonpos_of_mul_nonpos {a b : Int} (h : a * b ≤ 0) : a.tdiv b ≤ 0 := by
  have hneg : 0 ≤ a * -b := by rw [Int.mul_neg]; omega
  have := tdiv_nonneg_of_mul_nonneg hneg
  rw [Int.tdiv_neg] at this
  omega

/-- The remainder of the quotient rounded toward zero is smaller than the divisor and has the dividend's sign. -/
theorem tdiv_remainder (a : Int) {b : Int} (hb : b ≠ 0) :
    ∃ rem : Int, a = a.tdiv b * b + rem ∧ rem.natAbs < b.natAbs ∧ 0 ≤ rem * a := by
  refine ⟨a.tmod b, (Int.tdiv_mul_add_tmod a b).symm, ?_, ?_⟩
  · rw [Int.natAbs_tmod]
    exact Nat.mod_lt _ (Int.natAbs_pos.mpr hb)
  · rcases Int.le_total 0 a with ha | ha
    · exact Int.mul_nonneg (Int.tmod_nonneg b ha) ha
    · have hneg : 0 ≤ (-a).tmod b := Int.tmod_nonneg b (by omega)
      rw [Int.neg_tmod] at hneg
      exact Int.mul_nonneg_of_nonpos_of_nonpos (by omega) ha

/-- The quotient fits the word, so wrapping leaves it, for every pair but `INT_MIN / -1`. -/
theorem wrap32_tdiv_toInt {a b : Word} (h : ¬ (a.toInt = -2147483648 ∧ b.toInt = -1)) :
    (wrap32 (a.toInt.tdiv b.toInt)).toInt = a.toInt.tdiv b.toInt := by
  have hne : a ≠ BitVec.intMin 32 ∨ b ≠ -1#32 := by
    by_contra hc
    obtain ⟨rfl, rfl⟩ : a = BitVec.intMin 32 ∧ b = -1#32 := by simpa [not_or] using hc
    exact h (by decide)
  rw [wrap32_toInt, ← BitVec.toInt_sdiv_of_ne_or_ne a b hne]
  exact BitVec.toInt_bmod_cancel _

/-- Settles O16: but for `INT_MIN / -1` the register holds the exact quotient, with the laws of `Int.tdiv`. -/
theorem divisionRoundsTowardZero : Obligations.DivisionRoundsTowardZero := by
  intro s rd ra rb
  refine ⟨fun hz => ⟨_, exec_of_zero_divisor hz rd ra, raise_st .., raise_faultKind ..⟩, fun hne => ?_⟩
  refine ⟨_, exec_of_no_fault (op := .div) (by simp [hne]) rd ra, commit_st .., ?_⟩
  rw [readReg_commit_same]
  refine ⟨fun ⟨ha, hb⟩ => by rw [ha, hb]; decide, fun h => ?_⟩
  rw [aluExact, wrap32_tdiv_toInt h]
  exact ⟨Int.natAbs_tdiv .., tdiv_nonneg_of_mul_nonneg, tdiv_nonpos_of_mul_nonpos,
    tdiv_remainder _ (mt toInt_eq_zero_iff.mp hne)⟩

/-! ## The whole step (R115 to R119) -/

theorem fetch_of_alu_cells {s : State} {op : AluOp} {c1 c2 c3 : Word}
    (h0 : memRead s.mem s.pc.toNat = some (aluCode op)) (h1 : memRead s.mem (s.pc.toNat + 1) = some c1)
    (h2 : memRead s.mem (s.pc.toNat + 2) = some c2) (h3 : memRead s.mem (s.pc.toNat + 3) = some c3) :
    fetch s = decodedFault s (decode [aluCode op, c1, c2, c3]) := by
  simp [fetch, fetchCells, operandCells, cellAddr, h0, h1, h2, h3]

/-- With all four cells there, the step of an alu opcode is the instruction on its cells, legal or not. -/
theorem step_of_alu_cells {s : State} {op : AluOp} {c1 c2 c3 : Word} (hr : s.st = .running)
    (h0 : memRead s.mem s.pc.toNat = some (aluCode op)) (h1 : memRead s.mem (s.pc.toNat + 1) = some c1)
    (h2 : memRead s.mem (s.pc.toNat + 2) = some c2) (h3 : memRead s.mem (s.pc.toNat + 3) = some c3) :
    step s = execArith op c1 c2 c3 s := by
  have hf := fetch_of_alu_cells h0 h1 h2 h3
  cases hv : decodeOperands c1 c2 c3 with
  | invalid c =>
    rw [step_of_fetch_fault (k := .invalidRegister) (v := c) hr (by simp [hf, decode, hv, decodedFault])]
    simp [execArith, hv]
  | regs rd ra rb =>
    rw [step_of_fetch_instr (i := aluInstr op c1 c2 c3) hr (by simp [hf, decode, hv, decodedFault]), exec_aluInstr]

theorem execArith_of_invalid {c1 c2 c3 c : Word} (h : decodeOperands c1 c2 c3 = .invalid c) (op : AluOp)
    (s : State) : execArith op c1 c2 c3 s = .next (raise .invalidRegister c s) := by
  simp [execArith, h]

theorem eq_regCell_of_val_eq_toInt {c : Word} {r : RegIdx} (h : (r.val : Int) = c.toInt) : c = regCell r :=
  decodeOperand_eq_regCell (decodeOperand_of_val_eq_toInt h)

/-- R115 for each alu operation: a missing operand cell faults by R93, and with all cells there the step is `execArith`,
which validates rd, ra, rb in turn and then computes. -/
theorem step_followsSharedShape (op : AluOp) :
    StepFollowsSharedShape (aluCode op) (decide (op = .div)) (aluExact op) := by
  intro s hr h0
  obtain ⟨hlo, hhi⟩ := aluCode_toInt_bounds op
  obtain ⟨hmissing, -⟩ := operandFetchFaultsAtFirstMissingCell s _ hr h0 hlo hhi
  refine ⟨hmissing, fun c1 c2 c3 h1 h2 h3 => ?_⟩
  rw [step_of_alu_cells hr h0 h1 h2 h3]
  refine ⟨fun hb => ?_, fun hi1 hb => ?_, fun hi1 hi2 hb => ?_, fun rd ra rb e1 e2 e3 => ?_⟩
  · exact execArith_of_invalid (decodeOperands_invalid_rd hb c2 c3) op s
  · obtain ⟨rd, rfl⟩ := isIndex_iff_exists_regCell.mp hi1
    exact execArith_of_invalid (decodeOperands_invalid_ra rd hb c3) op s
  · obtain ⟨rd, rfl⟩ := isIndex_iff_exists_regCell.mp hi1
    obtain ⟨ra, rfl⟩ := isIndex_iff_exists_regCell.mp hi2
    exact execArith_of_invalid (decodeOperands_invalid_rb rd ra hb) op s
  · rw [eq_regCell_of_val_eq_toInt e1, eq_regCell_of_val_eq_toInt e2, eq_regCell_of_val_eq_toInt e3,
      execArith_regCell, decide_eq_true_iff, toInt_eq_zero_iff]
    refine ⟨fun hop hz => ?_, fun hok => ?_⟩
    · rw [hop, execRegs_of_zero_divisor hz]
      rfl
    · exact ⟨_, rfl, execRegs_of_no_fault hok rd ra ▸ committed_commit_wrap32 s rd _⟩

/-- Settles O23: `step_followsSharedShape` at each of the four operations. -/
theorem arithmeticStepsFollowTheirRules : Obligations.ArithmeticStepsFollowTheirRules :=
  ⟨step_followsSharedShape .add, step_followsSharedShape .sub, step_followsSharedShape .mul,
    step_followsSharedShape .div⟩

end Sys2Proof.Machine

/-! PROOFS for spec/60_exceptions.md: where UnknownOpcode (R144) and DivisionByZero (R146) come from. -/

namespace Sys2Proof.Machine

/-- R146: an operation that is not a division by zero commits, and a commit leaves the run state and the record. -/
theorem exec_raises_nothing {op : AluOp} {s : State} {rb : RegIdx} (h : ¬ (op = .div ∧ readReg s rb = 0#32))
    (rd ra : RegIdx) :
    ∃ t, exec (aluInstr op (regCell rd) (regCell ra) (regCell rb)) s = .next t ∧ t.st = s.st ∧
      t.faultKind = s.faultKind :=
  ⟨_, exec_of_no_fault h rd ra, commit_st .., commit_faultKind ..⟩

/-- Settles O11: the zero divisor's fault entry, and the two ways not to divide by zero: another operation, or another
divisor. -/
theorem onlyDivByZeroRaisesArithmeticFault : Obligations.OnlyDivByZeroRaisesArithmeticFault := fun _ rd ra _ =>
  ⟨fun hz => exec_of_zero_divisor hz rd ra,
    fun _ hop => exec_raises_nothing (fun hdiv => hop hdiv.1) rd ra,
    fun hne => exec_raises_nothing (op := .div) (fun hdiv => hne hdiv.2) rd ra⟩

/-- Settles O21: by what the step does for each opcode cell (R91, R92), a missing cell ends in MemoryFault, a cell 0 in
Halted, and a cell in `1 .. 4` in another kind than UnknownOpcode. -/
theorem unknownOpcodeExactlyWhenUndefined : Obligations.UnknownOpcodeExactlyWhenUndefined := by
  intro s hr
  obtain ⟨hmissing, hopcode⟩ := opcodeIsFetchedThenDecoded s hr
  refine ⟨fun v h0 hv => step_of_fetch_fault hr (fetch_of_unknown_opcode h0 hv), fun t hs hf hk => ?_⟩
  have ht {u : State} (hu : step s = .next u) : t = u := Host.Outcome.next.inj (hs.symm.trans hu)
  cases h0 : memRead s.mem s.pc.toNat with
  | none =>
    cases ht (hmissing (memRead_eq_none.mp h0))
    cases hk
  | some v =>
    obtain ⟨hhalt, hunknown, halu⟩ := hopcode v h0
    have hv : v.toInt = 0 ∨ (v.toInt < 0 ∨ 4 < v.toInt) ∨ (1 ≤ v.toInt ∧ v.toInt ≤ 4) := by omega
    rcases hv with hz | hu | ⟨h1, h4⟩
    · cases ht (hhalt hz)
      cases hf
    · exact ⟨v, rfl, hu, ht (hunknown hu)⟩
    · obtain ⟨u, hs', -, hkind⟩ := halu h1 h4
      cases ht hs'
      exact absurd hk (hkind hf)

end Sys2Proof.Machine

/-! SUPPORT and PROOFS for spec/70_reset_and_hazards.md: a run ends within the bound of R100, so outside a run every
command is answered (R176). -/

namespace Sys2Proof.Machine

/-- `pc` after a commit: a legal `MEM_SIZE` is too small for it to wrap. -/
theorem commit_pc_toNat {s : State} (hsize : SizeLegal s) (hpc : s.pc.toNat + 3 < s.mem.size) (rd : RegIdx) (v : Word) :
    (commit rd v s).pc.toNat = s.pc.toNat + 4 := by
  have hmax : s.mem.size ≤ 4294967292 := hsize
  simp only [commit_pc, BitVec.toNat_add, BitVec.toNat_ofNat]
  omega

/-- R100: each step but the last of a run is a commit, which uses up four cells of the memory, so fuel above the number
of whole instructions left is enough. -/
theorem exists_runSteps_eq_some (fuel : Nat) (s : State) (hsize : SizeLegal s)
    (hfuel : (s.mem.size - s.pc.toNat) / 4 < fuel) : ∃ t, runSteps fuel s = some t := by
  induction fuel generalizing s with
  | zero => omega
  | succ n ih =>
    by_cases hr : s.st = .running
    · rcases step_running_ends hr with hs | ⟨k, v, -, -, hs⟩ | ⟨rd, v, hpc, hs⟩
      · exact ⟨_, (runSteps_succ_of_next hr hs n).trans (runSteps_of_not_running (by simp) n)⟩
      · exact ⟨_, (runSteps_succ_of_next hr hs n).trans (runSteps_of_not_running (by simp) n)⟩
      · have hleft : ((commit rd v s).mem.size - (commit rd v s).pc.toNat) / 4 < n := by
          rw [commit_mem, commit_pc_toNat hsize hpc]
          omega
        exact runSteps_succ_of_next hr hs n ▸ ih (commit rd v s) hsize hleft
    · exact ⟨s, runSteps_of_not_running hr _⟩

theorem serveRun_ne_none {s : State} (hsize : SizeLegal s) : serveRun s ≠ none := by
  obtain ⟨t, ht⟩ := exists_runSteps_eq_some (runBound s) (acceptRun s) hsize (Nat.lt_succ_self _)
  simp [serveRun, ht]

/-- The only commands without an answer are those during a run, and a RUN that does not end. -/
theorem serve_eq_none_iff {c : Command} {s : State} :
    serve c s = none ↔ s.st = .running ∨ (c = .run ∧ serveRun s = none) := by
  by_cases hr : s.st = .running
  · simp [serve_of_running hr, hr]
  · cases c <;> simp [serve, hr]

/-- Settles O47: outside a run only an endless RUN would go unanswered, and a legal `MEM_SIZE` bounds every RUN. -/
theorem commandsAcceptedExactlyWhenNotRunning : Obligations.CommandsAcceptedExactlyWhenNotRunning := by
  refine fun c s hinv => ⟨fun h => ?_, fun hr => serve_of_running hr c⟩
  rcases serve_eq_none_iff.mp h with hr | ⟨-, hrun⟩
  · exact hr
  · exact absurd hrun (serveRun_ne_none hinv.size)

end Sys2Proof.Machine

/-! SUPPORT and PROOFS for spec/30_encoding.md: instructions and their cells, in both directions (sections 2 to 4 and
6). -/

namespace Sys2Proof

open Certificates

/-- The two formats of R51. -/
theorem instr_cases (i : Instr) : i = .halt ∨ ∃ op c1 c2 c3, i = aluInstr op c1 c2 c3 := by
  cases i with
  | halt => exact .inl rfl
  | add rd ra rb => exact .inr ⟨.add, rd, ra, rb, rfl⟩
  | sub rd ra rb => exact .inr ⟨.sub, rd, ra, rb, rfl⟩
  | mul rd ra rb => exact .inr ⟨.mul, rd, ra, rb, rfl⟩
  | div rd ra rb => exact .inr ⟨.div, rd, ra, rb, rfl⟩

@[simp] theorem encode_aluInstr (op : AluOp) (c1 c2 c3 : Word) :
    encode (aluInstr op c1 c2 c3) = [aluCode op, c1, c2, c3] := by
  cases op <;> rfl

theorem wellFormed_aluInstr_iff {op : AluOp} {c1 c2 c3 : Word} :
    (aluInstr op c1 c2 c3).wellFormed = true ↔ IsIndex c1 ∧ IsIndex c2 ∧ IsIndex c3 := by
  have hchecks : (aluInstr op c1 c2 c3).wellFormed = (isRegCell c1 && isRegCell c2 && isRegCell c3) := by
    cases op <;> rfl
  rw [hchecks, Bool.and_eq_true, Bool.and_eq_true, isRegCell_iff, isRegCell_iff, isRegCell_iff, and_assoc]

/-- Three operand cells are accepted exactly when each is valid. -/
theorem decodeOperands_eq_regs_iff {c1 c2 c3 : Word} :
    (∃ rd ra rb, decodeOperands c1 c2 c3 = .regs rd ra rb) ↔ IsIndex c1 ∧ IsIndex c2 ∧ IsIndex c3 := by
  constructor
  · rintro ⟨rd, ra, rb, h⟩
    rcases decodeOperands_cases c1 c2 c3 with ⟨-, hv⟩ | ⟨_, -, -, hv⟩ | ⟨_, _, -, -, -, hv⟩ |
      ⟨rd, ra, rb, e1, e2, e3, -⟩
    · exact absurd (hv.symm.trans h) nofun
    · exact absurd (hv.symm.trans h) nofun
    · exact absurd (hv.symm.trans h) nofun
    · exact ⟨isIndex_iff_exists_regCell.mpr ⟨rd, decodeOperand_eq_regCell e1⟩,
        isIndex_iff_exists_regCell.mpr ⟨ra, decodeOperand_eq_regCell e2⟩,
        isIndex_iff_exists_regCell.mpr ⟨rb, decodeOperand_eq_regCell e3⟩⟩
  · rintro ⟨h1, h2, h3⟩
    obtain ⟨rd, rfl⟩ := isIndex_iff_exists_regCell.mp h1
    obtain ⟨ra, rfl⟩ := isIndex_iff_exists_regCell.mp h2
    obtain ⟨rb, rfl⟩ := isIndex_iff_exists_regCell.mp h3
    exact ⟨rd, ra, rb, decodeOperands_regCell rd ra rb⟩

/-- The cell that `decodeOperands` answers as invalid is the first that is no index (R62). -/
theorem decodeOperands_invalid_is_first {c1 c2 c3 c : Word} (h : decodeOperands c1 c2 c3 = .invalid c) :
    (¬ IsIndex c1 ∧ c = c1) ∨ (IsIndex c1 ∧ ¬ IsIndex c2 ∧ c = c2) ∨
    (IsIndex c1 ∧ IsIndex c2 ∧ ¬ IsIndex c3 ∧ c = c3) := by
  have hc {d : Word} (hd : decodeOperands c1 c2 c3 = .invalid d) : c = d :=
    OperandVerdict.invalid.inj (h.symm.trans hd)
  obtain ⟨hrd, hra, hrb, hregs⟩ := operandCellIsItsOwnIndex.2 c1 c2 c3
  by_cases h1 : IsIndex c1
  · by_cases h2 : IsIndex c2
    · by_cases h3 : IsIndex c3
      · obtain ⟨rd, ra, rb, hd, -⟩ := hregs h1 h2 h3
        cases h.symm.trans hd
      · exact .inr (.inr ⟨h1, h2, h3, hc (hrb h1 h2 h3)⟩)
    · exact .inr (.inl ⟨h1, h2, hc (hra h1 h2)⟩)
  · exact .inl ⟨h1, hc (hrd h1)⟩

theorem decode_halt_cells (rest : List Word) : decode (0#32 :: rest) = .instr .halt := rfl

/-- Four cells with an alu opcode decode to an instruction exactly when their operand cells are valid, and then to the
instruction of these cells. -/
theorem decode_alu_cells_iff {op : AluOp} {c1 c2 c3 : Word} {rest : List Word} {i : Instr} :
    decode (aluCode op :: c1 :: c2 :: c3 :: rest) = .instr i ↔
      (aluInstr op c1 c2 c3).wellFormed = true ∧ i = aluInstr op c1 c2 c3 := by
  rw [wellFormed_aluInstr_iff, ← decodeOperands_eq_regs_iff]
  cases h : decodeOperands c1 c2 c3 with
  | invalid c => simp [decode, h]
  | regs rd ra rb => simp [decode, h, eq_comm]

/-- Settles O1: HALT's cell is read alone, and an alu opcode is followed by its three operand cells. -/
theorem decodeUndoesEncode : Obligations.DecodeUndoesEncode := by
  intro i rest hwf
  rcases instr_cases i with rfl | ⟨op, c1, c2, c3, rfl⟩
  · exact decode_halt_cells rest
  · rw [encode_aluInstr]
    exact decode_alu_cells_iff.mpr ⟨hwf, rfl⟩

/-- An alu opcode cell that decodes to an instruction has three operand cells after it. -/
theorem exists_operand_cells_of_decode {op : AluOp} {rest : List Word} {i : Instr}
    (h : decode (aluCode op :: rest) = .instr i) : ∃ c1 c2 c3 tail, rest = c1 :: c2 :: c3 :: tail := by
  match rest with
  | c1 :: c2 :: c3 :: tail => exact ⟨c1, c2, c3, tail, rfl⟩
  | [] => simp [decode] at h
  | [_] => simp [decode] at h
  | [_, _] => simp [decode] at h

/-- Settles O2: by the class of the opcode cell, and for an alu opcode by the number of cells after it. -/
theorem decodedCellsAreTheEncoding : Obligations.DecodedCellsAreTheEncoding := by
  intro cells i h
  cases cells with
  | nil => cases h
  | cons opc rest =>
    rcases decodeOpcode_cases opc with ⟨rfl, -⟩ | ⟨op, rfl, -⟩ | ⟨-, hu⟩
    · cases (decode_halt_cells rest).symm.trans h
      exact ⟨rfl, rest, rfl⟩
    · obtain ⟨c1, c2, c3, tail, rfl⟩ := exists_operand_cells_of_decode h
      obtain ⟨hwf, rfl⟩ := decode_alu_cells_iff.mp h
      exact ⟨hwf, tail, by simp⟩
    · simp [decode, hu] at h

/-- Settles O5: the decoder computes on written-out cells. -/
theorem writtenOutCellsDecode : Obligations.WrittenOutCellsDecode := by
  unfold Obligations.WrittenOutCellsDecode
  decide

end Sys2Proof

/-! SUPPORT and PROOFS for the machine's invariant (10_state.md sections 3, 5, 7 and 9): reset meets it, and every step
and every host command keeps it. -/

namespace Sys2Proof.Machine

/-- Settles O35: memory has no listed cell, `pc` is 0 and the record is clear. -/
theorem resetMeetsTheInvariant : Obligations.ResetMeetsTheInvariant := by
  have hreset (n : Nat) (hn : n ≤ 4294967292) : Inv (State.resetWith n) :=
    ⟨resetWith_mem_wf n, hn, ⟨rfl, Nat.zero_le n⟩, ⟨fun _ => ⟨rfl, rfl⟩, nofun⟩⟩
  exact ⟨hreset _ (Nat.le_refl _), hreset⟩

theorem Inv.raise {s : State} (h : Inv s) {k : FaultKind} (hnone : k ≠ .none) (hout : k ≠ .outOfBounds) (v : Word) :
    Inv (raise k v s) :=
  ⟨h.memWf, h.size, h.pc, ⟨fun hf => absurd rfl hf, fun _ => ⟨hnone, hout⟩⟩⟩

theorem Inv.haltRun {s : State} (h : Inv s) (hs : s.st ≠ .faulted) : Inv (haltRun s) :=
  ⟨h.memWf, h.size, h.pc, ⟨fun _ => h.record.1 hs, nofun⟩⟩

theorem Inv.commit {s : State} (h : Inv s) (hpc : s.pc.toNat + 3 < s.mem.size) (rd : RegIdx) (v : Word) :
    Inv (commit rd v s) := by
  obtain ⟨halign, -⟩ := h.pc
  refine ⟨h.memWf, h.size, ?_, h.record⟩
  rw [PcLegal, commit_pc_toNat h.size hpc, commit_mem]
  omega

theorem Inv.acceptRun {s : State} (h : Inv s) : Inv (acceptRun s) :=
  ⟨h.memWf, h.size, h.pc, ⟨fun _ => ⟨rfl, rfl⟩, nofun⟩⟩

theorem step_deterministic {s t u : State} (ht : step s = .next t) (hu : step s = .next u) : t = u :=
  Host.Outcome.next.inj (ht.symm.trans hu)

/-- Settles O33: by the three ends of a running step; a commit needs its operand cells to exist. -/
theorem everyStepKeepsTheInvariant : Obligations.EveryStepKeepsTheInvariant := by
  intro s t hinv hs
  by_cases hr : s.st = .running
  · rcases step_running_ends hr with hu | ⟨k, v, hnone, hout, hu⟩ | ⟨rd, v, hpc, hu⟩
    · exact step_deterministic hs hu ▸ hinv.haltRun (by simp [hr])
    · exact step_deterministic hs hu ▸ hinv.raise hnone hout v
    · exact step_deterministic hs hu ▸ hinv.commit hpc rd v
  · exact next_of_stopped_step hr hs ▸ hinv

theorem step_keeps_mem {s t : State} (hs : step s = .next t) : t.mem = s.mem := by
  by_cases hr : s.st = .running
  · rcases next_of_running_step hr hs with ⟨-, rfl⟩ | ⟨k, v, rfl⟩ | ⟨rd, v, rfl⟩
    · exact haltRun_mem s
    · exact raise_mem ..
    · exact commit_mem ..
  · rw [next_of_stopped_step hr hs]

/-- R98, R99: every fault is a next state. -/
theorem exists_step_eq_next (s : State) : ∃ t, step s = .next t := by
  by_cases hr : s.st = .running
  · obtain ⟨t, hs, -⟩ := stepEndsInOneOfThreeWays s hr
    exact ⟨t, hs⟩
  · exact ⟨s, step_of_not_running hr⟩

/-- Induction over a RUN that ends in `t`, from its end back. -/
theorem runSteps_induction {t : State} {P : Nat → State → Prop} (hend : t.st ≠ .running → ∀ n, P n t)
    (hstep : ∀ n s u, s.st = .running → step s = .next u → P n u → P (n + 1) s) {fuel : Nat} {s : State}
    (h : runSteps fuel s = some t) : P fuel s := by
  induction fuel generalizing s with
  | zero =>
    by_cases hr : s.st = .running
    · simp [runSteps, hr] at h
    · cases (runSteps_of_not_running hr 0).symm.trans h
      exact hend hr 0
  | succ n ih =>
    by_cases hr : s.st = .running
    · obtain ⟨u, hu⟩ := exists_step_eq_next s
      exact hstep n s u hr hu (ih ((runSteps_succ_of_next hr hu n).symm.trans h))
    · cases (runSteps_of_not_running hr (n + 1)).symm.trans h
      exact hend hr (n + 1)

/-- What the steps of a running core keep holds where a RUN ends. -/
theorem runSteps_keeps {Q : State → Prop} (hQ : ∀ s t, s.st = .running → step s = .next t → Q s → Q t)
    {fuel : Nat} {s t : State} (h : runSteps fuel s = some t) (hs : Q s) : Q t :=
  runSteps_induction (P := fun _ u => Q u → Q t) (fun _ _ ht => ht) (fun _ s u hr hu ih hq => ih (hQ s u hr hu hq)) h hs

/-- A RUN keeps the invariant and `MEM_SIZE`. -/
theorem runSteps_keeps_inv {fuel : Nat} {s t : State} (hinv : Inv s) (h : runSteps fuel s = some t) :
    Inv t ∧ t.mem.size = s.mem.size :=
  runSteps_keeps (Q := fun u => Inv u ∧ u.mem.size = s.mem.size)
    (fun u v _ hstep ⟨hu, hsize⟩ =>
      ⟨everyStepKeepsTheInvariant u v hu hstep, (congrArg Memory.size (step_keeps_mem hstep)).trans hsize⟩)
    h ⟨hinv, rfl⟩

theorem Inv.memWrite {s : State} (h : Inv s) {m : Memory} {a : Nat} {v : Word} (hm : memWrite s.mem a v = some m) :
    Inv { s with mem := m } ∧ m.size = s.mem.size := by
  have hwf := memWrite_wf h.memWf hm
  obtain ⟨-, rfl⟩ := memWrite_some hm
  exact ⟨⟨hwf, h.size, h.pc, h.record⟩, rfl⟩

/-- Settles O34: besides RESET, an accepted write and RUN, a command leaves all but the registers. -/
theorem everyCommandKeepsTheInvariant : Obligations.EveryCommandKeepsTheInvariant := by
  intro c s t a hinv h
  obtain ⟨-, hc⟩ := serve_cases h
  have hsame {u : State} (hu : u = s) : Inv u ∧ u.mem.size = s.mem.size := by
    rw [hu]
    exact ⟨hinv, rfl⟩
  rcases hc with ⟨-, -, rfl⟩ | ⟨_, _, m, -, -, hm, rfl⟩ | ⟨_, _, -, -, -, ht⟩ | ⟨_, _, -, -, -, ht⟩ |
    ⟨_, -, -, -, ht⟩ | ⟨_, v, r, -, -, -, rfl⟩ | ⟨_, _, -, -, -, ht⟩ | ⟨_, _, -, -, -, ht⟩ | ⟨_, -, -, -, ht⟩ |
    ⟨-, -, hrun⟩ | ⟨-, -, ht⟩
  · exact ⟨resetMeetsTheInvariant.2 _ hinv.size, rfl⟩
  · exact hinv.memWrite hm
  · exact hsame ht
  · exact hsame ht
  · exact hsame ht
  · exact ⟨⟨hinv.memWf, hinv.size, hinv.pc, hinv.record⟩, rfl⟩
  · exact hsame ht
  · exact hsame ht
  · exact hsame ht
  · exact runSteps_keeps_inv (s := acceptRun s) hinv.acceptRun hrun
  · exact hsame ht

/-- Settles O36: the missing cell is cell 0 at a `pc` that is at most `MEM_SIZE`, or it follows a cell that exists. -/
theorem memoryFaultRecordsMemSize : Obligations.MemoryFaultRecordsMemSize := by
  intro s t hinv hr hs hf hk
  obtain ⟨-, hpc⟩ := hinv.pc
  have hmax : s.mem.size ≤ 4294967292 := hinv.size
  rcases step_running_cases hr with ⟨h0, hu⟩ | ⟨-, hu⟩ | ⟨v, -, -, hu⟩ | ⟨op, k, -, -, -, hlt, hle, hu⟩ |
    ⟨op, c1, c2, c3, -, -, -, -, ⟨c, -, hu⟩ | ⟨rd, ra, rb, -, -, -, hu⟩⟩
  · have hsize : s.mem.size ≤ s.pc.toNat := memRead_eq_none.mp h0
    rw [step_deterministic hs hu, raise_faultInfo, addrInfo_toNat]
    omega
  · simp [step_deterministic hs hu] at hf
  · simp [step_deterministic hs hu] at hk
  · have haddr : s.pc.toNat + k = s.mem.size := by omega
    rw [step_deterministic hs hu, raise_faultInfo, haddr, addrInfo, BitVec.toNat_ofNat, Nat.mod_eq_of_lt (by omega)]
  · simp [step_deterministic hs hu] at hk
  · rcases execRegs_cases op rd ra rb s with ⟨-, -, he⟩ | ⟨-, he⟩
    · simp [step_deterministic hs hu, he] at hk
    · simp [step_deterministic hs hu, he, hr] at hf

end Sys2Proof.Machine

/-! PROOFS for the instructions' own effects (42_halt.md section 1, 43_arithmetic.md sections 1 to 3, 30_encoding.md
section 4). -/

namespace Sys2Proof.Machine

/-- Settles O6: `haltRun` is that update. -/
theorem haltCompletes : Obligations.HaltCompletes := exec_halt

/-- Settles O7: ADD cannot divide by zero. -/
theorem addCompletes : Obligations.AddCompletes := fun _ rd ra _ => exec_committed (op := .add) (by simp) rd ra

/-- Settles O8: SUB cannot divide by zero. -/
theorem subCompletes : Obligations.SubCompletes := fun _ rd ra _ => exec_committed (op := .sub) (by simp) rd ra

/-- Settles O9: MUL cannot divide by zero. -/
theorem mulCompletes : Obligations.MulCompletes := fun _ rd ra _ => exec_committed (op := .mul) (by simp) rd ra

/-- Settles O10: the divisor is not 0. -/
theorem divCompletes : Obligations.DivCompletes := fun _ rd ra _ hne =>
  exec_committed (op := .div) (fun hz => hne hz.2) rd ra

/-- Settles O12: the decoder's verdict on the three cells (R53, R62) is the fault taken. -/
theorem invalidOperandTakesFault : Obligations.InvalidOperandTakesFault := by
  intro op c1 c2 c3 s
  obtain ⟨hrd, hra, hrb, -⟩ := operandCellIsItsOwnIndex.2 c1 c2 c3
  rw [exec_aluInstr]
  exact ⟨fun h1 => execArith_of_invalid (hrd h1) op s, fun h1 h2 => execArith_of_invalid (hra h1 h2) op s,
    fun h1 h2 h3 => execArith_of_invalid (hrb h1 h2 h3) op s⟩

/-- Everything an arithmetic instruction answers, in terms of the shared operations. -/
theorem exec_aluInstr_ends (op : AluOp) (c1 c2 c3 : Word) (s : State) :
    (∃ k v, exec (aluInstr op c1 c2 c3) s = .next (raise k v s)) ∨
    (∃ rd v, c1 = regCell rd ∧ exec (aluInstr op c1 c2 c3) s = .next (commit rd v s)) := by
  rw [exec_aluInstr]
  rcases execArith_cases op c1 c2 c3 s with ⟨c, -, he⟩ | ⟨rd, ra, rb, h1, -, -, he⟩
  · exact .inl ⟨_, c, he⟩
  · rcases execRegs_cases op rd ra rb s with ⟨-, -, hx⟩ | ⟨-, hx⟩
    · exact .inl ⟨_, _, hx ▸ he⟩
    · exact .inr ⟨rd, _, h1, hx ▸ he⟩

/-- Settles O13: the frames of the fault entry and of the commit. -/
theorem arithmeticFrame : Obligations.ArithmeticFrame := by
  intro op c1 c2 c3 s t h
  rcases exec_aluInstr_ends op c1 c2 c3 s with ⟨k, v, he⟩ | ⟨rd, v, h1, he⟩
  · cases he.symm.trans h
    exact ⟨fun _ => rfl, .inr ⟨fun r => readReg_raise s r v k, raise_pc .., raise_st ..⟩⟩
  · cases he.symm.trans h
    exact ⟨fun _ => rfl, .inl ⟨rd, h1, fun r hr => readReg_commit_ne s rd v hr, rfl, rfl, rfl, rfl⟩⟩

/-- Settles O17: HALT answers the halted state, an arithmetic instruction a fault entry or a commit. -/
theorem everyInstructionAnswersNext : Obligations.EveryInstructionAnswersNext := by
  intro i s
  rcases instr_cases i with rfl | ⟨op, c1, c2, c3, rfl⟩
  · exact ⟨_, exec_halt s⟩
  · rcases exec_aluInstr_ends op c1 c2 c3 s with ⟨k, v, he⟩ | ⟨rd, v, -, he⟩
    · exact ⟨_, he⟩
    · exact ⟨_, he⟩

end Sys2Proof.Machine

/-! SUPPORT and PROOFS for spec/41_cycle.md, the step as a whole: what it runs (section 2), that it is the assembled
`step()` block (section 3), what it leaves unchanged, and what it reads (20_memory.md section 3). -/

namespace Sys2Proof.Machine

/-- Settles O18: the cells that decode to an instruction are its encoding, so they stand where the step fetches. -/
theorem stepRunsDecodedInstruction : Obligations.StepRunsDecodedInstruction := by
  intro s cells i hr hd hmem
  obtain ⟨-, rest, rfl⟩ := decodedCellsAreTheEncoding cells i hd
  rcases instr_cases i with rfl | ⟨op, c1, c2, c3, rfl⟩
  · have h0 : memRead s.mem s.pc.toNat = some 0#32 := hmem 0 (by simp [encode])
    rw [step_of_halt_opcode hr h0, exec_halt]
  · simp only [encode_aluInstr] at hmem
    rw [exec_aluInstr, step_of_alu_cells hr (hmem 0 (by simp)) (hmem 1 (by simp)) (hmem 2 (by simp)) (hmem 3 (by simp))]
    rfl

/-- Settles O27. -/
theorem stoppedCoreKeepsItsState : Obligations.StoppedCoreKeepsItsState := fun _ h => step_of_not_running h

/-- A run of one more step is the step and the run from there. -/
theorem run_succ_of_step {s t : State} (hs : step s = .next t) (n : Nat) :
    Host.Core.run core (n + 1) s = Host.Core.run core n t := by
  have hcore : core.step s = .next t := hs
  simp only [Host.Core.run, hcore]

theorem run_keeps_mem {n : Nat} {s t : State} (h : Host.Core.run core n s = .next t) : t.mem = s.mem := by
  induction n generalizing s with
  | zero =>
    cases h
    rfl
  | succ n ih =>
    obtain ⟨u, hu⟩ := exists_step_eq_next s
    exact (ih ((run_succ_of_step hu n).symm.trans h)).trans (step_keeps_mem hu)

/-- Settles O28: neither a halt, nor a fault entry, nor a commit touches memory; a run is steps. -/
theorem runsNeverWriteMemory : Obligations.RunsNeverWriteMemory :=
  ⟨fun _ _ hs => step_keeps_mem hs, fun _ _ _ h => run_keeps_mem h⟩

/-- Settles O30: only a commit stays in Running, and it writes the register its rd cell names. -/
theorem onlyTheDestinationRegisterChanges : Obligations.OnlyTheDestinationRegisterChanges := by
  intro s t hs
  by_cases hr : s.st = .running
  · rcases step_running_cases hr with ⟨-, hu⟩ | ⟨-, hu⟩ | ⟨v, -, -, hu⟩ | ⟨op, k, -, -, -, -, -, hu⟩ |
      ⟨op, c1, c2, c3, -, h1, -, -, ⟨c, -, hu⟩ | ⟨rd, ra, rb, rfl, -, -, hu⟩⟩
    · simp [step_deterministic hs hu]
    · simp [step_deterministic hs hu]
    · simp [step_deterministic hs hu]
    · simp [step_deterministic hs hu]
    · simp [step_deterministic hs hu]
    · rcases execRegs_cases op rd ra rb s with ⟨-, -, he⟩ | ⟨-, he⟩
      · simp [step_deterministic hs hu, he]
      · rw [step_deterministic hs hu, he]
        exact ⟨fun hn => absurd ⟨hr, (commit_st ..).trans hr⟩ hn,
          fun _ _ => ⟨rd, h1, fun r hne => readReg_commit_ne s rd _ hne⟩⟩
  · exact ⟨fun _ _ => by rw [next_of_stopped_step hr hs], fun h => absurd h hr⟩

/-! ## What a step reads -/

/-- Fetching depends on `pc` and the four cells there. -/
theorem fetch_congr {s u : State} (hpc : u.pc = s.pc)
    (hmem : ∀ k, k ≤ 3 → memRead u.mem (s.pc.toNat + k) = memRead s.mem (s.pc.toNat + k)) : fetch u = fetch s := by
  have haddr (k : Nat) : cellAddr u k = cellAddr s k := by simp [cellAddr, hpc]
  have hcell (k : Nat) (hk : k ≤ 3) : memRead u.mem (cellAddr s k) = memRead s.mem (cellAddr s k) := hmem k hk
  have hoperands : operandCells u = operandCells s := by
    simp only [operandCells, haddr, hcell 1 (by omega), hcell 2 (by omega), hcell 3 (by omega)]
  have hcells : fetchCells u = fetchCells s := by
    simp only [fetchCells, haddr, hcell 0 (by omega), hoperands]
  have hfault (d : Decoded) : decodedFault u d = decodedFault s d := by
    rcases d with i | v | c | k <;> simp [decodedFault, haddr]
  rw [fetch, fetch, hcells, hfault]

theorem execRegs_with_mem (op : AluOp) (rd ra rb : RegIdx) (s : State) (m : Memory) :
    execRegs op rd ra rb { s with mem := m } = { execRegs op rd ra rb s with mem := m } := by
  by_cases hz : op = .div ∧ readReg s rb = 0#32
  · obtain ⟨rfl, hz⟩ := hz
    rw [execRegs_of_zero_divisor hz]
    exact execRegs_of_zero_divisor (s := { s with mem := m }) hz rd ra
  · rw [execRegs_of_no_fault hz]
    exact execRegs_of_no_fault (s := { s with mem := m }) hz rd ra

/-- No instruction reads or writes memory once it is fetched. -/
theorem exec_with_mem {i : Instr} {s t : State} (m : Memory) (h : exec i s = .next t) :
    exec i { s with mem := m } = .next { t with mem := m } := by
  rcases instr_cases i with rfl | ⟨op, c1, c2, c3, rfl⟩
  · cases (exec_halt s).symm.trans h
    rfl
  · rw [exec_aluInstr] at h ⊢
    cases hv : decodeOperands c1 c2 c3 with
    | invalid c =>
      cases (execArith_of_invalid hv op s).symm.trans h
      exact execArith_of_invalid hv op _
    | regs rd ra rb =>
      have he (u : State) : execArith op c1 c2 c3 u = .next (execRegs op rd ra rb u) := by simp [execArith, hv]
      cases (he s).symm.trans h
      rw [he, execRegs_with_mem]

/-- Settles O29: the fetch is the same by its four cells, and what follows it does not look at memory. -/
theorem stepSeesOnlyItsOwnCells : Obligations.StepSeesOnlyItsOwnCells := by
  intro s t m hr hmem hs
  have hf : fetch { s with mem := m } = fetch s := fetch_congr rfl hmem
  cases hfs : fetch s with
  | instr i =>
    rw [step_of_fetch_instr hr hfs] at hs
    exact (step_of_fetch_instr (s := { s with mem := m }) hr (hf.trans hfs)).trans (exec_with_mem m hs)
  | fault k v =>
    cases (step_of_fetch_fault hr hfs).symm.trans hs
    exact step_of_fetch_fault (s := { s with mem := m }) hr (hf.trans hfs)

end Sys2Proof.Machine

/-! SUPPORT and PROOFS for spec/41_cycle.md section 3: the step is the assembled `step()` block. What the block answers
is said case by case, in the cases of `step_running_cases`. -/

namespace Sys2Proof.Machine

open Certificates

theorem assembledStep_of_missing_opcode {s : State} (h : memRead s.mem s.pc.toNat = none) :
    assembledStep s = raise .memoryFault (addrInfo s.pc.toNat) s := by
  simp only [assembledStep, h]
  rfl

theorem assembledStep_of_halt_opcode {s : State} (h : memRead s.mem s.pc.toNat = some 0#32) :
    assembledStep s = haltRun s := by
  simp only [assembledStep, h]
  rfl

theorem assembledStep_of_unknown_opcode {s : State} {c : Word} (h : memRead s.mem s.pc.toNat = some c)
    (hc : c.toInt < 0 ∨ 4 < c.toInt) : assembledStep s = raise .unknownOpcode c s := by
  have hne : c.toInt ≠ 0 := by omega
  have hout : c.toInt < 1 ∨ 4 < c.toInt := by omega
  simp only [assembledStep, h, if_neg hne, if_pos hout, gt_iff_lt]
  rfl

/-- The block's own test lets the opcode cells of the alu operations through. -/
theorem aluCode_passes_opcode_tests (op : AluOp) :
    ¬ (aluCode op).toInt = 0 ∧ ¬ ((aluCode op).toInt < 1 ∨ (aluCode op).toInt > 4) := by
  obtain ⟨hlo, hhi⟩ := aluCode_toInt_bounds op
  omega

theorem assembledStep_of_missing_operand {s : State} {op : AluOp} {k : Nat}
    (h0 : memRead s.mem s.pc.toNat = some (aluCode op)) (hk1 : 1 ≤ k) (hk3 : k ≤ 3)
    (hlt : s.pc.toNat + (k - 1) < s.mem.size) (hle : s.mem.size ≤ s.pc.toNat + k) :
    assembledStep s = raise .memoryFault (addrInfo (s.pc.toNat + k)) s := by
  obtain ⟨hz, ho⟩ := aluCode_passes_opcode_tests op
  have hnone := memRead_eq_none.mpr hle
  have hsome (j : Nat) (hj : j < k) := memRead_of_lt (m := s.mem) (a := s.pc.toNat + j) (by omega)
  obtain rfl | rfl | rfl : k = 1 ∨ k = 2 ∨ k = 3 := by omega
  · simp only [assembledStep, h0, if_neg hz, if_neg ho, hnone]
    rfl
  · simp only [assembledStep, h0, if_neg hz, if_neg ho, hsome 1 (by omega), hnone]
    rfl
  · simp only [assembledStep, h0, if_neg hz, if_neg ho, hsome 1 (by omega), hsome 2 (by omega), hnone]
    rfl

/-- The block's range test of an operand cell. -/
theorem operand_test_iff {c : Word} : (c.toInt < 0 ∨ c.toInt > 3) ↔ ¬ IsIndex c := by
  omega

theorem assembledStep_of_invalid_operand {s : State} {op : AluOp} {c1 c2 c3 c : Word}
    (h0 : memRead s.mem s.pc.toNat = some (aluCode op)) (h1 : memRead s.mem (s.pc.toNat + 1) = some c1)
    (h2 : memRead s.mem (s.pc.toNat + 2) = some c2) (h3 : memRead s.mem (s.pc.toNat + 3) = some c3)
    (hv : decodeOperands c1 c2 c3 = .invalid c) : assembledStep s = raise .invalidRegister c s := by
  obtain ⟨hz, ho⟩ := aluCode_passes_opcode_tests op
  simp only [assembledStep, h0, h1, h2, h3, if_neg hz, if_neg ho, operand_test_iff]
  rcases decodeOperands_invalid_is_first hv with ⟨hc1, rfl⟩ | ⟨hc1, hc2, rfl⟩ | ⟨hc1, hc2, hc3, rfl⟩
  · rw [if_pos hc1]
    rfl
  · rw [if_neg (not_not.mpr hc1), if_pos hc2]
    rfl
  · rw [if_neg (not_not.mpr hc1), if_neg (not_not.mpr hc2), if_pos hc3]
    rfl

theorem getD_regCell_eq_readReg (s : State) (r : RegIdx) :
    s.x[(regCell r).toInt.toNat]?.getD 0#32 = readReg s r := by
  simp [readReg]

theorem setIfInBounds_regCell (s : State) (r : RegIdx) (v : Word) :
    s.x.setIfInBounds (regCell r).toInt.toNat v = s.x.set r.val v := by
  simp [Vector.setIfInBounds, Array.setIfInBounds]

/-- The block's choice of the result by the opcode cell is `aluExact`. -/
theorem aluExact_eq_by_opcode (op : AluOp) (a b : Int) :
    (if (aluCode op).toInt = 1 then a + b else if (aluCode op).toInt = 2 then a - b
      else if (aluCode op).toInt = 3 then a * b else a.tdiv b) = aluExact op a b := by
  cases op <;> rfl

theorem aluCode_toInt_eq_four_iff {op : AluOp} : (aluCode op).toInt = 4 ↔ op = .div := by
  cases op <;> decide

theorem assembledStep_of_registers {s : State} {op : AluOp} {rd ra rb : RegIdx}
    (h0 : memRead s.mem s.pc.toNat = some (aluCode op)) (h1 : memRead s.mem (s.pc.toNat + 1) = some (regCell rd))
    (h2 : memRead s.mem (s.pc.toNat + 2) = some (regCell ra))
    (h3 : memRead s.mem (s.pc.toNat + 3) = some (regCell rb)) : assembledStep s = execRegs op rd ra rb s := by
  obtain ⟨hz, ho⟩ := aluCode_passes_opcode_tests op
  have hindex (r : RegIdx) : ¬ ¬ IsIndex (regCell r) := not_not.mpr (isIndex_iff_exists_regCell.mpr ⟨r, rfl⟩)
  simp only [assembledStep, h0, h1, h2, h3, if_neg hz, if_neg ho, operand_test_iff, if_neg (hindex _),
    getD_regCell_eq_readReg, setIfInBounds_regCell, aluExact_eq_by_opcode, aluCode_toInt_eq_four_iff,
    toInt_eq_zero_iff (b := readReg s rb)]
  by_cases hdiv : op = .div ∧ readReg s rb = 0#32
  · rw [if_pos hdiv, hdiv.1, execRegs_of_zero_divisor hdiv.2]
    rfl
  · rw [if_neg hdiv, execRegs_of_no_fault hdiv]
    rfl

/-- Settles O19: case by case of everything a step can do. -/
theorem stepIsTheAssembledStep : Obligations.StepIsTheAssembledStep := by
  intro s hr
  rcases step_running_cases hr with ⟨h0, hs⟩ | ⟨h0, hs⟩ | ⟨v, h0, hv, hs⟩ | ⟨op, k, h0, hk1, hk3, hlt, hle, hs⟩ |
    ⟨op, c1, c2, c3, h0, h1, h2, h3, ⟨c, hv, hs⟩ | ⟨rd, ra, rb, rfl, rfl, rfl, hs⟩⟩
  · rw [hs, assembledStep_of_missing_opcode h0]
  · rw [hs, assembledStep_of_halt_opcode h0]
  · rw [hs, assembledStep_of_unknown_opcode h0 hv]
  · rw [hs, assembledStep_of_missing_operand h0 hk1 hk3 hlt hle]
  · rw [hs, assembledStep_of_invalid_operand h0 h1 h2 h3 hv]
  · rw [hs, assembledStep_of_registers h0 h1 h2 h3]

end Sys2Proof.Machine

/-! SUPPORT and PROOFS for the course of a run (40_host_operations.md section 5, 20_memory.md section 7): how a RUN
reaches its end, what a second RUN does, and what the fetches of a run see. -/

namespace Sys2Proof.Machine

theorem runSteps_ends_outside_running {fuel : Nat} {s t : State} (h : runSteps fuel s = some t) :
    t.st ≠ .running :=
  runSteps_induction (P := fun _ _ => t.st ≠ .running) (fun ht _ => ht) (fun _ _ _ _ _ ih => ih) h

/-- A RUN is as many steps of the core as lead to the first state that is not Running. -/
theorem exists_run_of_runSteps {fuel : Nat} {s t : State} (h : runSteps fuel s = some t) :
    ∃ n, n ≤ fuel ∧ Host.Core.run core n s = .next t ∧
      ∀ m, m < n → ∃ u : State, Host.Core.run core m s = .next u ∧ u.st = .running := by
  refine runSteps_induction (P := fun fuel s => ∃ n, n ≤ fuel ∧ Host.Core.run core n s = .next t ∧
    ∀ m, m < n → ∃ u : State, Host.Core.run core m s = .next u ∧ u.st = .running) (fun _ fuel => ?_)
    (fun fuel s u hr hu ⟨n, hn, hrun, hbefore⟩ => ?_) h
  · exact ⟨0, Nat.zero_le fuel, rfl, nofun⟩
  · refine ⟨n + 1, Nat.succ_le_succ hn, (run_succ_of_step hu n).trans hrun, fun m hm => ?_⟩
    cases m with
    | zero => exact ⟨s, rfl, hr⟩
    | succ m =>
      obtain ⟨v, hv, hvr⟩ := hbefore m (Nat.lt_of_succ_lt_succ hm)
      exact ⟨v, (run_succ_of_step hu m).trans hv, hvr⟩

/-- R19: only RESET leads to Idle. -/
theorem step_ne_idle {s t : State} (hr : s.st = .running) (hs : step s = .next t) : t.st ≠ .idle := by
  rcases next_of_running_step hr hs with ⟨-, rfl⟩ | ⟨k, v, rfl⟩ | ⟨rd, v, rfl⟩
  · simp
  · simp
  · simp [hr]

/-- R76: a RUN ends in Halted or in Faulted. -/
theorem runSteps_acceptRun_ends {fuel : Nat} {s t : State} (h : runSteps fuel (acceptRun s) = some t) :
    t.st = .halted ∨ t.st = .faulted := by
  have hrunning := runSteps_ends_outside_running h
  have hidle : t.st ≠ .idle :=
    runSteps_keeps (Q := fun u => u.st ≠ .idle) (fun _ _ hr hs _ => step_ne_idle hr hs) h (by simp)
  cases ht : t.st with
  | idle => exact absurd ht hidle
  | running => exact absurd ht hrunning
  | halted => exact .inl rfl
  | faulted => exact .inr rfl

theorem endAnswer_of_halted {s : State} (h : s.st = .halted) : endAnswer s = .halted := by
  simp [endAnswer, h]

theorem endAnswer_of_faulted {s : State} (h : s.st = .faulted) : endAnswer s = .faulted s.faultKind s.faultInfo := by
  simp [endAnswer, h]

theorem serve_run_of_runSteps {s t : State} (hr : s.st ≠ .running)
    (h : runSteps (runBound s) (acceptRun s) = some t) : serve .run s = some (endAnswer t, t) := by
  simp [serve, serveRun, hr, h]

/-- Settles O44: RUN's fuel is the spec's bound, and suffices by R100. -/
theorem runStepsToItsEnd : Obligations.RunStepsToItsEnd := by
  intro s hinv hr
  obtain ⟨t, ht⟩ := exists_runSteps_eq_some (runBound s) (acceptRun s) hinv.size (Nat.lt_succ_self _)
  obtain ⟨n, hn, hrun, hbefore⟩ := exists_run_of_runSteps ht
  have hserve := serve_run_of_runSteps hr ht
  refine ⟨n, t, hn, hrun, hbefore, (runSteps_acceptRun_ends ht).imp (fun hend => ⟨hend, ?_⟩) (fun hend => ⟨hend, ?_⟩)⟩
  · rw [hserve, endAnswer_of_halted hend]
  · rw [hserve, endAnswer_of_faulted hend]

/-! ## RUN again -/

/-- The record is clear in Halted, so accepting a RUN and halting again restores the state. -/
theorem haltRun_acceptRun_of_halted {s : State} (hinv : Inv s) (hs : s.st = .halted) :
    haltRun (acceptRun s) = s := by
  obtain ⟨hkind, hinfo⟩ := hinv.record.1 (by simp [hs])
  cases s
  simp_all [haltRun, acceptRun]

/-- An instruction that faulted faults again on the state with the record cleared, and gives the same record. -/
theorem exec_faults_again {i : Instr} {s t : State} (hr : s.st = .running) (h : exec i s = .next t)
    (hf : t.st = .faulted) : exec i (acceptRun t) = .next t := by
  rcases instr_cases i with rfl | ⟨op, c1, c2, c3, rfl⟩
  · cases (exec_halt s).symm.trans h
    simp at hf
  rw [exec_aluInstr] at h ⊢
  rcases execArith_cases op c1 c2 c3 s with ⟨c, hv, he⟩ | ⟨rd, ra, rb, rfl, rfl, rfl, he⟩
  · cases he.symm.trans h
    exact execArith_of_invalid hv op _
  · rcases execRegs_cases op rd ra rb s with ⟨rfl, hz, hx⟩ | ⟨-, hx⟩
    · rw [hx] at he
      cases he.symm.trans h
      rw [execArith_regCell, execRegs_of_zero_divisor (by simpa using hz)]
      rfl
    · rw [hx] at he
      cases he.symm.trans h
      simp [hr] at hf

/-- R99, R76 and D14: a fault leaves `pc`, the registers and the memory, so with Running restored the same cells are
fetched and the same fault is taken. -/
theorem step_faults_again {s t : State} (hr : s.st = .running) (hs : step s = .next t) (hf : t.st = .faulted) :
    step (acceptRun t) = .next t := by
  have hpc : t.pc = s.pc := (step_pc hs).2 (by simp [hf])
  have hfetch : fetch (acceptRun t) = fetch s := fetch_congr hpc fun k _ => by rw [acceptRun_mem, step_keeps_mem hs]
  cases hfs : fetch s with
  | instr i =>
    rw [step_of_fetch_instr hr hfs] at hs
    rw [step_of_fetch_instr (acceptRun_st t) (hfetch.trans hfs)]
    exact exec_faults_again hr hs hf
  | fault k v =>
    cases (step_of_fetch_fault hr hfs).symm.trans hs
    exact step_of_fetch_fault (acceptRun_st _) (hfetch.trans hfs)

/-- Settles O45: in both cases the first step of the RUN gives the state back. -/
theorem runAgainRepeatsTheEnd : Obligations.RunAgainRepeatsTheEnd := by
  refine ⟨fun s hinv hs h0 => ?_, fun s t hr hs hf => ?_⟩
  · rw [serve_run_of_halt_opcode (by simp [hs]) h0, haltRun_acceptRun_of_halted hinv hs]
  · rw [serve_run_of_first_step (by simp [hf]) (step_faults_again hr hs hf) (by simp [hf]), endAnswer_of_faulted hf]

/-! ## What the run sees of the host's writes -/

/-- Settles O49: the write is in the memory that the run starts with, and no run writes memory. -/
theorem hostWritesAreSeenByTheRun : Obligations.HostWritesAreSeenByTheRun := by
  intro s t u a v n hwf hwrite hrun
  obtain ⟨-, m, hm, rfl⟩ := serve_memWrite_ok_iff.mp hwrite
  rw [run_keeps_mem hrun, acceptRun_mem, memRead_memWrite hwf hm, if_pos rfl]

end Sys2Proof.Machine

/-! SUPPORT and PROOFS for spec/60_exceptions.md: where InvalidRegister comes from (R145). -/

namespace Sys2Proof.Machine

open Certificates

/-- Settles O50: the shared shape of the arithmetic steps (R115) one way; the other way, of everything a step can do only
the verdict on three existing cells is InvalidRegister. -/
theorem invalidRegisterRecordsFirstBadCell : Obligations.InvalidRegisterRecordsFirstBadCell := by
  refine fun s hr => ⟨fun opc c1 c2 c3 h0 hlo hhi h1 h2 h3 => ?_, fun t hs hf hk => ?_⟩
  · obtain ⟨op, rfl⟩ := exists_aluCode_of_toInt_bounds hlo hhi
    obtain ⟨hrd, hra, hrb, -⟩ := (step_followsSharedShape op s hr h0).2 c1 c2 c3 h1 h2 h3
    exact ⟨hrd, hra, hrb⟩
  · rcases step_running_cases hr with ⟨-, hu⟩ | ⟨-, hu⟩ | ⟨v, -, -, hu⟩ | ⟨op, k, -, -, -, -, -, hu⟩ |
      ⟨op, c1, c2, c3, h0, h1, h2, h3, ⟨c, hv, hu⟩ | ⟨rd, ra, rb, -, -, -, hu⟩⟩
    · simp [step_deterministic hs hu] at hk
    · simp [step_deterministic hs hu] at hf
    · simp [step_deterministic hs hu] at hk
    · simp [step_deterministic hs hu] at hk
    · obtain ⟨hlo, hhi⟩ := aluCode_toInt_bounds op
      have hinfo : t.faultInfo = c := by rw [step_deterministic hs hu, raise_faultInfo]
      exact ⟨aluCode op, c1, c2, c3, h0, hlo, hhi, h1, h2, h3, hinfo ▸ decodeOperands_invalid_is_first hv⟩
    · rcases execRegs_cases op rd ra rb s with ⟨-, -, he⟩ | ⟨-, he⟩
      · simp [step_deterministic hs hu, he] at hk
      · simp [step_deterministic hs hu, he, hr] at hf

end Sys2Proof.Machine
